-- ==== Sys2Proof/Word.lean ====
section
/-! DEFINITION. The one word type of the machine: the byte (spec/00_scope.md R5). -/

namespace Sys2Proof

/-- A byte, an unsigned number in 0..255 (R5): a register, the program counter, an opcode, an
operand, the content of a written memory cell. -/
abbrev Byte := BitVec 8

end Sys2Proof
end

