-- ==== Sys2Proof/Config.lean ====
section
/-! DEFINITION. The parameters of the hardware that reset reads (spec/00_scope.md R4).
The opcode byte map `OPC` is the table of Decode.lean. -/

namespace Sys2Proof

/-- `SP_RESET`: the reset value of the stack pointer (R4, R131; the spec's decision D2, log 2).
DESIGN CHOICE of the spec among those doc00 leaves; unsafe for a claim that names stack addresses. -/
def Config.spReset : Byte := 0xF4

/-- `PC_RESET`: the program counter "Starts at 0" (R4, R14). -/
def Config.pcReset : Byte := 0

/-- The reset value of x[0] .. x[6] (R4, R22). -/
def Config.regReset : Byte := 0

end Sys2Proof
end

