-- ==== Sys2Proof/Syntax.lean ====
section
/-! DEFINITION. The instruction set: 13 mnemonics, 13 instructions, and the four formats
(spec/00_scope.md R1, spec/30_encoding.md R50 to R53). -/

namespace Sys2Proof

/-- The 13 mnemonics (R1), in the order of the opcode table. Also the operation selector of the
arithmetic unit (spec/41_data_alu.md R83). -/
inductive Mnemonic where
  | LDI | PRN | HLT | MUL | PUSH | POP | CALL | RET | ADD | CMP | JMP | JEQ | JNE
  deriving DecidableEq, Repr

/-- An instruction with its operand bytes as they stand in memory. A register operand is the whole
byte, not masked to 3 bits: "a register index above 7 is legal to encode and fatal to execute"
(R52, R58). -/
inductive Instr where
  /-- `LDI rr,v` (R80): register index, immediate. -/
  | ldi (r v : Byte)
  /-- `PRN rr` (R75). -/
  | prn (r : Byte)
  /-- `HLT` (R74). -/
  | hlt
  /-- `MUL ra,rb` (R82): first factor and destination, second factor. -/
  | mul (a b : Byte)
  /-- `PUSH rr` (R92). -/
  | push (r : Byte)
  /-- `POP rr` (R93). -/
  | pop (r : Byte)
  /-- `CALL rr` (R94): the register holding the target address. -/
  | call (r : Byte)
  /-- `RET` (R95). -/
  | ret
  /-- `ADD ra,rb` (R81): first source and destination, second source. -/
  | add (a b : Byte)
  /-- `CMP ra,rb` (R100): left operand, right operand. -/
  | cmp (a b : Byte)
  /-- `JMP rr` (R101). -/
  | jmp (r : Byte)
  /-- `JEQ rr` (R102). -/
  | jeq (r : Byte)
  /-- `JNE rr` (R103). -/
  | jne (r : Byte)
  deriving DecidableEq, Repr

/-- The four formats of R51, each carrying the instruction its operand bytes complete: how many
operand bytes follow the opcode byte is fixed by the format alone (R53). -/
inductive Layout where
  /-- Format Z: the opcode byte alone. -/
  | Z (i : Instr)
  /-- Format R: one operand byte, a register index. -/
  | R (mk : Byte → Instr)
  /-- Format RR: two operand bytes, both register indices. -/
  | RR (mk : Byte → Byte → Instr)
  /-- Format RI: two operand bytes, a register index and an immediate value. -/
  | RI (mk : Byte → Byte → Instr)

/-- The mnemonic of an instruction, as spec/opcode_table.json spells it. -/
def Instr.mnemonic : Instr → Mnemonic
  | .ldi _ _ => .LDI
  | .prn _ => .PRN
  | .hlt => .HLT
  | .mul _ _ => .MUL
  | .push _ => .PUSH
  | .pop _ => .POP
  | .call _ => .CALL
  | .ret => .RET
  | .add _ _ => .ADD
  | .cmp _ _ => .CMP
  | .jmp _ => .JMP
  | .jeq _ => .JEQ
  | .jne _ => .JNE

/-- The operand bytes that the instruction's format makes register indices, `op0` first (R51, R52).
The immediate of LDI is not among them. -/
def Instr.regOperands : Instr → List Byte
  | .ldi r _ => [r]
  | .prn r => [r]
  | .hlt => []
  | .mul a b => [a, b]
  | .push r => [r]
  | .pop r => [r]
  | .call r => [r]
  | .ret => []
  | .add a b => [a, b]
  | .cmp a b => [a, b]
  | .jmp r => [r]
  | .jeq r => [r]
  | .jne r => [r]

end Sys2Proof
end

