-- ==== Sys2Proof/Machine/State.lean ====
section
/-! DEFINITION. The state of the engine as plain data, the fatal errors it latches, and reset
(spec/10_state.md R10 to R23, spec/60_exceptions.md R110, R118). -/

namespace Sys2Proof.Machine

/-- What a memory cell holds: "the model's cell type is `Empty | Byte(v)`" (R11). Empty is no byte. -/
inductive CellValue where
  | empty
  | byte (v : Byte)
  deriving DecidableEq, Repr

/-- Memory (R11, R30): the written cells as (address, byte) pairs. Canonical form: `Memory.wf`. -/
abbrev Memory := List Host.Cell

/-- What an address no pair lists reads as: Empty, the reset content of every cell (R11, R22). -/
def Memory.unlisted : CellValue := .empty

/-- The canonical form: addresses strictly rising and inside the 256 cells (R30). No pair can be
equal to what an unlisted address reads as, since a pair holds a byte and `unlisted` is Empty. -/
abbrev Memory.wf (m : Memory) : Prop :=
  m.Pairwise (fun p q => p.1 < q.1) ∧ ∀ p ∈ m, p.1 ≤ 255

/-- A register index in range, 0..7 (R12). -/
abbrev RegIndex := Fin 8

/-- The register file (R12): "exactly 8 general-purpose slots (indices 0–7)". None is hardwired. -/
structure RegFile where
  r0 : Byte
  r1 : Byte
  r2 : Byte
  r3 : Byte
  r4 : Byte
  r5 : Byte
  r6 : Byte
  /-- x[7], the stack pointer: the same storage, not a copy (R13). -/
  r7 : Byte
  deriving DecidableEq, Repr

/-- The flags register (R15): three separate bits; no packing is architectural (the spec's decision
D12, log 20). -/
structure Flags where
  /-- `fl.E`. -/
  equal : Bool
  /-- `fl.L`. -/
  less : Bool
  /-- `fl.G`. -/
  greater : Bool
  deriving DecidableEq, Repr

/-- The run state (R17): "Running and Halted, starting in Running". -/
inductive RunState where
  | running
  | halted
  deriving DecidableEq, Repr

/-- The record of a fatal error, kept in the error latch: the five kinds of R110, "a closed inductive
type with those five constructors" (R118). Numbers are naturals, since 256 must be nameable (log 11). -/
inductive FatalError where
  /-- `UnrecognizedOpcode(a, v)` (R112): the cell at `pc` holds no opcode; `value` may be Empty. -/
  | unrecognizedOpcode (address : Nat) (value : CellValue)
  /-- `OutOfBounds(Mem, a)` (R111): an access at an address above 255. -/
  | outOfBoundsMem (address : Nat)
  /-- `EmptyRead(a)` (R113): a read that must deliver a byte found an Empty cell. -/
  | emptyRead (address : Nat)
  /-- `OutOfBounds(Reg, i)` (R111): a register index operand above 7. -/
  | outOfBoundsReg (index : Nat)
  /-- `OutOfBounds(Pc, n)` (R111): the sequential advance would leave 0..255. -/
  | outOfBoundsPc (next : Nat)
  deriving DecidableEq, Repr

/-- The complete state of the engine, seven items and nothing else (R10). -/
structure State where
  /-- `mem[a]` (R11). -/
  mem : Memory
  /-- `x[i]` (R12, R13). -/
  regs : RegFile
  /-- The program counter (R14): between steps, the address of the next opcode byte. -/
  pc : Byte
  /-- `fl.E`, `fl.L`, `fl.G` (R15). -/
  fl : Flags
  /-- `run` (R17). -/
  run : RunState
  /-- The error latch `err` (R18). -/
  err : Option FatalError
  /-- The output sink `out`, oldest value first (R19). -/
  out : List Byte
  deriving DecidableEq, Repr

/-- The reasons a meaning can stop the machine with no next state. The engine's own fatal errors are
NOT here: the spec describes their entry (R117), so they are next states (log 4). -/
inductive Fault where
  /-- `UnsupportedOperation(op)`: raised by the arithmetic unit `alu` on a selector other than ADD and
  MUL, "a local, recoverable-by-caller condition" (R83). No instruction can cause it (R83, R114), so
  no step ends in it. Safe: it stops where the spec gives the engine no effect. -/
  | unsupportedOperation (op : Mnemonic)
  deriving DecidableEq, Repr

/-- The reasons an instruction is refused. -/
inductive Refusal where
  /-- Raised by an arm of `exec` whose instruction has no meaning yet. No arm does. Safe. -/
  | notModelled (mnemonic : String)
  deriving DecidableEq, Repr

/-- The outcome of a step or of a meaning. -/
abbrev Result := Host.Outcome State Fault Refusal

/-- The machine right after reset (R22, R130): every cell Empty, x[0..6] = 0, x[7] = SP_RESET, pc = 0,
flags clear, Running, no error, no output. -/
def State.reset : State where
  mem := []
  regs :=
    { r0 := Config.regReset
      r1 := Config.regReset
      r2 := Config.regReset
      r3 := Config.regReset
      r4 := Config.regReset
      r5 := Config.regReset
      r6 := Config.regReset
      r7 := Config.spReset }
  pc := Config.pcReset
  fl := { equal := false, less := false, greater := false }
  run := .running
  err := none
  out := []

end Sys2Proof.Machine
end

