-- ==== Sys2Proof/Machine/Flags.lean ====
section
/-! DEFINITION. The one flag computation of the machine, CMP's (spec/43_compare_branch.md R100). -/

namespace Sys2Proof.Machine

/-- Compare two bytes as unsigned numbers (R100). The direction of Less and Greater is the spec's
decision D7 (log 18): no instruction reads them. -/
def compareFlags (x y : Byte) : Flags where
  equal := decide (x.toNat = y.toNat)
  less := decide (x.toNat < y.toNat)
  greater := decide (x.toNat > y.toNat)

end Sys2Proof.Machine
end

