-- ==== Sys2Proof/Machine/Ops.lean ====
section
/-! DEFINITION. The named operations every instruction is built from: registers, memory, the stack
mechanics, the sequential advance, the output sink, and taking a fatal error
(spec/10_state.md, spec/20_memory.md R32, R33, spec/40_dispatch_system.md R73,
spec/42_stack_subroutine.md R90, R91, spec/60_exceptions.md R116, R117). -/

namespace Sys2Proof.Machine

/-- `x[i]` (R6, R12). -/
def RegFile.get (f : RegFile) (i : RegIndex) : Byte :=
  match i with
  | 0 => f.r0
  | 1 => f.r1
  | 2 => f.r2
  | 3 => f.r3
  | 4 => f.r4
  | 5 => f.r5
  | 6 => f.r6
  | 7 => f.r7

/-- `x[i] <- v` (R6, R12). -/
def RegFile.set (f : RegFile) (i : RegIndex) (v : Byte) : RegFile :=
  match i with
  | 0 => { f with r0 := v }
  | 1 => { f with r1 := v }
  | 2 => { f with r2 := v }
  | 3 => { f with r3 := v }
  | 4 => { f with r4 := v }
  | 5 => { f with r5 := v }
  | 6 => { f with r6 := v }
  | 7 => { f with r7 := v }

/-- The stack pointer is register 7 (R13, `SP_INDEX`). -/
def spIndex : RegIndex := 7

/-- Read register `i`. -/
def State.reg (s : State) (i : RegIndex) : Byte := s.regs.get i

/-- Write register `i`. -/
def State.setReg (s : State) (i : RegIndex) (v : Byte) : State := { s with regs := s.regs.set i v }

/-- `sp`, a second name for `x[7]` (R6). -/
def State.sp (s : State) : Byte := s.reg spIndex

/-- Write the program counter (R6). -/
def State.setPc (s : State) (v : Byte) : State := { s with pc := v }

/-- Write all three flags (R15). -/
def State.setFlags (s : State) (f : Flags) : State := { s with fl := f }

/-- `out <- out ++ [v]` (R6, R19). -/
def State.emit (s : State) (v : Byte) : State := { s with out := s.out ++ [v] }

/-- `run <- Halted` (R6). -/
def State.halt (s : State) : State := { s with run := .halted }

/-- Taking a fatal error, the one entry for all five kinds (R117): `err <- K(info)`, `run <- Halted`,
nothing else written. There is no return from it (R119). -/
def State.raise (s : State) (e : FatalError) : State := { s with err := some e, run := .halted }

/-- The content of cell `a` (R11): the one read of a byte of memory all others go through. -/
def Memory.cell : Memory → Nat → CellValue
  | [], _ => Memory.unlisted
  | (k, v) :: rest, a => if k = a then .byte v else Memory.cell rest a

/-- `mem[a] <- Byte(v)`, keeping the addresses strictly rising (R33). -/
def Memory.write : Memory → Nat → Byte → Memory
  | [], a, v => [(a, v)]
  | (k, w) :: rest, a, v =>
    if a < k then (a, v) :: (k, w) :: rest
    else if a = k then (a, v) :: rest
    else (k, w) :: Memory.write rest a v

/-- Write bytes at consecutive increasing addresses from `a`. -/
def Memory.load : Memory → Nat → List Byte → Memory
  | m, _, [] => m
  | m, a, b :: bs => Memory.load (m.write a b) (a + 1) bs

/-- `MemRead(a, 1)` (R32): bounds first, then Empty. -/
def memRead (a : Nat) (s : State) : Except FatalError Byte :=
  if a > 255 then .error (.outOfBoundsMem a)
  else
    match s.mem.cell a with
    | .empty => .error (.emptyRead a)
    | .byte v => .ok v

/-- `MemWrite(a, 1, v)` (R33): stores `v mod 256`, same bounds check, no other cell changes. -/
def memWrite (a v : Nat) (s : State) : Except FatalError State :=
  if a > 255 then .error (.outOfBoundsMem a)
  else .ok { s with mem := s.mem.write a (BitVec.ofNat 8 v) }

/-- Where the next push stores: `(sp - 1) mod 256`, the decremented stack pointer (R31, R90). -/
def pushAddr (s : State) : Nat := (s.sp - 1).toNat

/-- `x[7] <- (x[7] - 1) mod 256` (R90). -/
def State.decSp (s : State) : State := s.setReg spIndex (s.sp - 1)

/-- `x[7] <- (x[7] + 1) mod 256` (R91, R93). -/
def State.incSp (s : State) : State := s.setReg spIndex (s.sp + 1)

/-- The push mechanic (R90): decrement first, then store at the new stack pointer. "Where `v` is given
as an expression that reads a register, the register is read after the decrement": `v` is applied to
the state after it. -/
def push (v : State → Nat) (s : State) : Except FatalError State :=
  memWrite (pushAddr s) (v s.decSp) s.decSp

/-- The read half of the pop mechanic (R91): `MemRead(x[7], 1)` at the current stack pointer. -/
def readTop (s : State) : Except FatalError Byte := memRead s.sp.toNat s

/-- Stage 5, the sequential advance over an instruction of `len` bytes (R73): no wrap; above 255 the
instruction's writes stay, `pc` is unchanged and OutOfBounds(Pc, next) is raised. -/
def State.advance (s : State) (len : Nat) : State :=
  if s.pc.toNat + len ≤ 255 then s.setPc (BitVec.ofNat 8 (s.pc.toNat + len))
  else s.raise (.outOfBoundsPc (s.pc.toNat + len))

/-- Go on with what a check or a read delivers, or take its fatal error in the state `s` before the
instruction wrote anything (R115, R116, R117). -/
def orRaise {α : Type} (s : State) (r : Except FatalError α) (k : α → Result) : Result :=
  match r with
  | .ok x => k x
  | .error e => .next (s.raise e)

/-- Finish an outcome's next state; a stop stays. -/
def onNext (r : Result) (f : State → State) : Result :=
  match r with
  | .next t => .next (f t)
  | .fault e => .fault e
  | .refused e => .refused e

/-- The arithmetic unit (R83): add or multiply the registers `a` and `b` into `a`, modulo 256; any
other selector fails with UnsupportedOperation and writes nothing. -/
def alu (op : Mnemonic) (a b : RegIndex) (s : State) : Result :=
  match op with
  | .ADD => .next (s.setReg a (s.reg a + s.reg b))
  | .MUL => .next (s.setReg a (s.reg a * s.reg b))
  | .LDI => .fault (.unsupportedOperation .LDI)
  | .PRN => .fault (.unsupportedOperation .PRN)
  | .HLT => .fault (.unsupportedOperation .HLT)
  | .PUSH => .fault (.unsupportedOperation .PUSH)
  | .POP => .fault (.unsupportedOperation .POP)
  | .CALL => .fault (.unsupportedOperation .CALL)
  | .RET => .fault (.unsupportedOperation .RET)
  | .CMP => .fault (.unsupportedOperation .CMP)
  | .JMP => .fault (.unsupportedOperation .JMP)
  | .JEQ => .fault (.unsupportedOperation .JEQ)
  | .JNE => .fault (.unsupportedOperation .JNE)

end Sys2Proof.Machine
end

