-- ==== Sys2Proof/Machine/Operands.lean ====
section
/-! DEFINITION. The two operand forms of the machine (spec/30_encoding.md R52,
spec/40_dispatch_system.md R71). -/

namespace Sys2Proof.Machine

/-- Stage 3a for one register operand (R71): the whole byte is the index, not masked; above 7 it
raises OutOfBounds(Reg, value). -/
def regIndex (op : Byte) : Except FatalError RegIndex :=
  if h : op.toNat < 8 then .ok ⟨op.toNat, h⟩ else .error (.outOfBoundsReg op.toNat)

/-- The immediate operand of LDI (R52): the whole byte, used as it stands. -/
def immediate (op : Byte) : Byte := op

/-- Format R: check `op0`, then run `k` with the register it names (R71). -/
def withReg (op0 : Byte) (s : State) (k : RegIndex → Result) : Result :=
  orRaise s (regIndex op0) k

/-- Format RR: check `op0`, then `op1`, then run `k` with the two registers (R71). -/
def withRegs (op0 op1 : Byte) (s : State) (k : RegIndex → RegIndex → Result) : Result :=
  withReg op0 s fun a => withReg op1 s fun b => k a b

end Sys2Proof.Machine
end

