-- ==== Sys2Proof/Machine/Branch.lean ====
section
/-! DEFINITION. CMP, JMP, JEQ, JNE (spec/43_compare_branch.md R100 to R104). -/

namespace Sys2Proof.Machine

/-- CMP (R100): set all three flags from the unsigned values, advance by 3. -/
def execCmp (a b : Byte) (s : State) : Result :=
  withRegs a b s fun i j => .next ((s.setFlags (compareFlags (s.reg i) (s.reg j))).advance 3)

/-- JMP (R101): `pc <- x[op0]`. -/
def execJmp (r : Byte) (s : State) : Result :=
  withReg r s fun i => .next (s.setPc (s.reg i))

/-- JEQ (R102): `pc <- x[op0]` if `fl.E = 1`, else advance by 2. The index is checked either way (R71). -/
def execJeq (r : Byte) (s : State) : Result :=
  withReg r s fun i => .next (if s.fl.equal then s.setPc (s.reg i) else s.advance 2)

/-- JNE (R103): `pc <- x[op0]` if `fl.E = 0`, else advance by 2. The index is checked either way (R71). -/
def execJne (r : Byte) (s : State) : Result :=
  withReg r s fun i => .next (if s.fl.equal then s.advance 2 else s.setPc (s.reg i))

end Sys2Proof.Machine
end

