-- ==== Sys2Proof/Machine/DataAlu.lean ====
section
/-! DEFINITION. LDI, ADD, MUL (spec/41_data_alu.md R80 to R84). -/

namespace Sys2Proof.Machine

/-- LDI (R80): `x[op0] <- op1`, advance by 3. -/
def execLdi (r v : Byte) (s : State) : Result :=
  withReg r s fun i => .next ((s.setReg i (immediate v)).advance 3)

/-- ADD (R81): `x[op0] <- (x[op0] + x[op1]) mod 256`, advance by 3. -/
def execAdd (a b : Byte) (s : State) : Result :=
  withRegs a b s fun i j => onNext (alu .ADD i j s) fun t => t.advance 3

/-- MUL (R82): `x[op0] <- (x[op0] * x[op1]) mod 256` on registers (90_conflicts.md C1), advance by 3. -/
def execMul (a b : Byte) (s : State) : Result :=
  withRegs a b s fun i j => onNext (alu .MUL i j s) fun t => t.advance 3

end Sys2Proof.Machine
end

