-- ==== Sys2Proof/Machine/Stack.lean ====
section
/-! DEFINITION. PUSH, POP, CALL, RET (spec/42_stack_subroutine.md R90 to R96). -/

namespace Sys2Proof.Machine

/-- PUSH (R92): push `x[op0]`, read after the decrement; advance by 2. -/
def execPush (r : Byte) (s : State) : Result :=
  withReg r s fun i =>
    orRaise s (push (fun t => (t.reg i).toNat) s) fun t => .next (t.advance 2)

/-- POP (R93): `x[op0] <- MemRead(sp)`, then `x[7] <- x[7] + 1` reading `x[7]` after that write;
advance by 2. DEDUCED (log 6): POP's own rule orders the two writes, over the general mechanic R91. -/
def execPop (r : Byte) (s : State) : Result :=
  withReg r s fun i =>
    orRaise s (readTop s) fun v => .next ((s.setReg i v).incSp.advance 2)

/-- CALL (R94): push `pc + 2`, then `pc <- x[op0]`, read after the push; no advance. -/
def execCall (r : Byte) (s : State) : Result :=
  withReg r s fun i =>
    orRaise s (push (fun _ => s.pc.toNat + 2) s) fun t => .next (t.setPc (t.reg i))

/-- RET (R95): pop into `pc`; no advance. -/
def execRet (s : State) : Result :=
  orRaise s (readTop s) fun v => .next (s.incSp.setPc v)

end Sys2Proof.Machine
end

