-- ==== Sys2Proof/Machine/System.lean ====
section
/-! DEFINITION. HLT and PRN (spec/40_dispatch_system.md R74, R75). -/

namespace Sys2Proof.Machine

/-- HLT (R74): `run <- Halted`; `pc` keeps the address of the HLT byte (90_conflicts.md C4). -/
def execHlt (s : State) : Result := .next s.halt

/-- PRN (R75): append `x[op0]` to the output sink, advance by 2. -/
def execPrn (r : Byte) (s : State) : Result :=
  withReg r s fun i => .next ((s.emit (s.reg i)).advance 2)

end Sys2Proof.Machine
end

