-- ==== Sys2Proof/WellFormed.lean ====
section
/-! DEFINITION. Well-formed instructions: every register operand names one of the 8 registers
(spec/30_encoding.md R52, spec/40_dispatch_system.md R71).

DESIGN CHOICE (log 9), safe: every operand byte is a legal ENCODING, so ill-formed instructions
decode and run too; running one takes the fatal error OutOfBounds(Reg, index). -/

namespace Sys2Proof

/-- The operand byte names one of the registers 0..7 (R52). -/
def regOperandOk (op : Byte) : Bool := decide (op.toNat ≤ 7)

/-- Every register operand is in range. -/
def wellFormed (i : Instr) : Bool := i.regOperands.all regOperandOk

/-- `wellFormed` as a proposition. -/
abbrev WellFormed (i : Instr) : Prop := wellFormed i = true

end Sys2Proof
end

