-- ==== Sys2Proof/Decode.lean ====
section
/-! DEFINITION. The decoder, total on any bytes and rejecting by name, and the encoder
(spec/30_encoding.md R50 to R58). -/

namespace Sys2Proof

/-- The opcode map of R56 with the format of each opcode (R51, R53), one row per instruction. An
instruction is selected by all 8 bits of its opcode byte. PRESUMED (log 1), unsafe: the byte values
are the spec's decision D1, from general knowledge. -/
def opcodeTable : List (Byte × Layout) :=
  [(0x01, .Z .hlt),
   (0x11, .Z .ret),
   (0x45, .R .push),
   (0x46, .R .pop),
   (0x47, .R .prn),
   (0x50, .R .call),
   (0x54, .R .jmp),
   (0x55, .R .jeq),
   (0x56, .R .jne),
   (0x82, .RI .ldi),
   (0xA0, .RR .add),
   (0xA2, .RR .mul),
   (0xA7, .RR .cmp)]

/-- Stage 2 of the step, the static table's row for an opcode byte; `none` for the 243 unrecognized
bytes (R54, R58). -/
def lookupOpcode (opc : Byte) : Option Layout :=
  (opcodeTable.find? (fun row => row.1 == opc)).map (fun row => row.2)

/-- The operand count of a format: 0, 1 or 2 (R53). -/
def Layout.operandCount : Layout → Nat
  | .Z _ => 0
  | .R _ => 1
  | .RR _ => 2
  | .RI _ => 2

/-- Why a sequence of bytes is no instruction. -/
inductive DecodeError where
  /-- There is no opcode byte. -/
  | noOpcode
  /-- The first byte is none of the 13 opcode bytes (R58). -/
  | unrecognized (opc : Byte)
  /-- The bytes end before the operands the opcode calls for (R53). -/
  | missingOperand (opc : Byte)
  deriving DecidableEq, Repr

/-- The operand bytes complete the instruction of a format (R50, R52): exactly as many bytes are
taken as the format has operands, and the rest is returned. -/
def Layout.takeOperands : Layout → List Byte → Option (Instr × List Byte)
  | .Z i, rest => some (i, rest)
  | .R mk, op0 :: rest => some (mk op0, rest)
  | .RR mk, op0 :: op1 :: rest => some (mk op0 op1, rest)
  | .RI mk, op0 :: op1 :: rest => some (mk op0 op1, rest)
  | .R _, [] => none
  | .RR _, [] => none
  | .RR _, [_] => none
  | .RI _, [] => none
  | .RI _, [_] => none

/-- Decode the instruction at the front of `bytes`, lowest address first; answers it with the bytes
after it (R50, R54). -/
def decode : List Byte → Except DecodeError (Instr × List Byte)
  | [] => .error .noOpcode
  | opc :: rest =>
    match lookupOpcode opc with
    | none => .error (.unrecognized opc)
    | some layout =>
      match layout.takeOperands rest with
      | none => .error (.missingOperand opc)
      | some r => .ok r

/-- The bytes of an instruction at increasing addresses: opcode, operand 0, operand 1 (R35, R50,
R56). Written from R56 on its own, not from `opcodeTable`. -/
def encode : Instr → List Byte
  | .hlt => [0x01]
  | .ret => [0x11]
  | .push r => [0x45, r]
  | .pop r => [0x46, r]
  | .prn r => [0x47, r]
  | .call r => [0x50, r]
  | .jmp r => [0x54, r]
  | .jeq r => [0x55, r]
  | .jne r => [0x56, r]
  | .ldi r v => [0x82, r, v]
  | .add a b => [0xA0, a, b]
  | .mul a b => [0xA2, a, b]
  | .cmp a b => [0xA7, a, b]

/-- The length of an instruction in bytes, `1 + n` (R50, R53). -/
def Instr.length (i : Instr) : Nat := (encode i).length

/-- The three bytes, first byte lowest, of an instruction word numbered as spec/opcode_table.json
numbers it (bit 0 is the least significant bit of the first byte), the bits above `nbits` zero. -/
def tableWordBytes (nbits w : Nat) : List Byte :=
  let v := w % 2 ^ nbits
  [BitVec.ofNat 8 v, BitVec.ofNat 8 (v / 256), BitVec.ofNat 8 (v / 65536)]

/-- The instruction the decoder reads from an opcode-table word. -/
def decodeTableWord (nbits w : Nat) : Option Instr :=
  match decode (tableWordBytes nbits w) with
  | .ok (i, _) => some i
  | .error _ => none

end Sys2Proof
end

