-- ==== Sys2Proof/Machine/Fetch.lean ====
section
/-! DEFINITION. Stages 1 to 3 of the step: opcode fetch, decode by the static table, operand fetch
(spec/40_dispatch_system.md R70, spec/30_encoding.md R52, R54). -/

namespace Sys2Proof.Machine

/-- Stage 3 (R70): exactly the operand bytes the format calls for, in address order. Addresses do not
wrap: the operand of an opcode at 255 is at 256, which is out of range (R34). -/
def fetchOperands (s : State) : Layout → Except FatalError Instr
  | .Z i => .ok i
  | .R mk => do
    let op0 ← memRead (s.pc.toNat + 1) s
    return mk op0
  | .RR mk => do
    let op0 ← memRead (s.pc.toNat + 1) s
    let op1 ← memRead (s.pc.toNat + 2) s
    return mk op0 op1
  | .RI mk => do
    let op0 ← memRead (s.pc.toNat + 1) s
    let op1 ← memRead (s.pc.toNat + 2) s
    return mk op0 op1

/-- Stages 1 to 3 (R70). The opcode is not read through MemRead: an Empty cell at `pc` is
UnrecognizedOpcode(pc, Empty). -/
def fetch (s : State) : Except FatalError Instr :=
  match s.mem.cell s.pc.toNat with
  | .empty => .error (.unrecognizedOpcode s.pc.toNat .empty)
  | .byte opc =>
    match lookupOpcode opc with
    | none => .error (.unrecognizedOpcode s.pc.toNat (.byte opc))
    | some layout => fetchOperands s layout

/-- The state with `bytes` stored from `pc` upward, those below address 256 (log 8). -/
def State.placeAtPc (s : State) (bytes : List Byte) : State :=
  { s with mem := s.mem.load s.pc.toNat (bytes.take (256 - s.pc.toNat)) }

end Sys2Proof.Machine
end

