-- ==== Sys2Proof/Machine/Step.lean ====
section
/-! DEFINITION. The step (spec/40_dispatch_system.md R70, R77) and where a word must stand to be run by
it. -/

namespace Sys2Proof.Machine

/-- One step. Running: fetch, decode, execute; a fatal error of the fetch is taken in the state before
the step (R70, R117). Halted: "A step request while `run = Halted` does nothing" (R77; DEDUCED, log 5). -/
def step (s : State) : Host.Outcome State Fault Refusal :=
  match s.run with
  | .halted => .next s
  | .running => orRaise s (fetch s) fun i => exec i s

/-- `s` with an opcode-table word stored where the next step fetches its instruction, and Running, so
that the next step runs it (log 8). -/
def State.withFetchWord (s : State) (nbits w : Nat) : State :=
  { s.placeAtPc (tableWordBytes nbits w) with run := .running }

end Sys2Proof.Machine
end

