-- ==== Sys2Proof/Machine/Boundary.lean ====
section
/-! DEFINITION. The engine's boundary (spec/92_eei_decisions.md D11): the reset input, the launch port,
step and run control, the output stream and the status output. Nothing else reaches the engine, and
nothing outside it writes state during a run (spec/20_memory.md R43). -/

namespace Sys2Proof.Machine

/-- The reset input (R130): every piece of state takes its reset value; nothing survives. -/
def State.resetInput (_ : State) : State := .reset

/-- The launch port (R133): the program written contiguously from address 0 into the reset state. "A
program of more than 256 bytes has no launch". -/
def launch (p : List Byte) : Option State :=
  if p.length ≤ 256 then some { State.reset with mem := State.reset.mem.load 0 p } else none

/-- Run control (R76, R77): `n` step requests, stopping at a fault or a refusal. -/
def stepN : Nat → State → Result
  | 0, s => .next s
  | n + 1, s =>
    match step s with
    | .next t => stepN n t
    | .fault e => .fault e
    | .refused e => .refused e

/-- The status output (D11): `run` and `err`. -/
def State.status (s : State) : RunState × Option FatalError := (s.run, s.err)

/-- The sink's text (R19), one line per value: its decimal numeral, no sign, no leading zeros. The line
end itself is the host's (log 12). -/
def State.outLines (s : State) : List String := s.out.map fun v => toString v.toNat

end Sys2Proof.Machine
end

