-- ==== Sys2Proof/Safety.lean ====
section
/-! DEFINITION. What counts as a good state, a normal end and a fault, and the words the claims are
written in (spec/10_state.md R16, R18, R23, spec/70_reset_and_hazards.md R136). -/

namespace Sys2Proof.Machine

/-- At most one flag is set (R16). -/
abbrev Flags.AtMostOne (f : Flags) : Prop :=
  ¬ (f.equal = true ∧ f.less = true) ∧ ¬ (f.equal = true ∧ f.greater = true) ∧
    ¬ (f.less = true ∧ f.greater = true)

/-- Exactly one flag is set (R16). -/
abbrev Flags.ExactlyOne (f : Flags) : Prop :=
  f.AtMostOne ∧ (f.equal = true ∨ f.less = true ∨ f.greater = true)

/-- The invariants of R23 that the types do not already give: memory in canonical form and inside
0..255, at most one flag set, `err` set only if Halted. -/
abbrev State.Inv (s : State) : Prop :=
  s.mem.wf ∧ s.fl.AtMostOne ∧ (s.err ≠ none → s.run = .halted)

/-- The normal end of a run (R136): Halted by HLT, `err = None`. -/
abbrev State.NormalEnd (s : State) : Prop := s.run = .halted ∧ s.err = none

/-- The end of a run in a fault (R136): a state with `err` set "is not a result" and never final. -/
abbrev State.Faulted (s : State) : Prop := s.run = .halted ∧ s.err ≠ none

/-- The bytes stand in memory at consecutive addresses from `a`, all inside 0..255. -/
def Memory.Holds (m : Memory) : Nat → List Byte → Prop
  | _, [] => True
  | a, b :: bs => (a ≤ 255 ∧ m.cell a = .byte b) ∧ m.Holds (a + 1) bs

/-- Every register but those of `ks` is as before. -/
def State.SameRegsBut (s t : State) (ks : List RegIndex) : Prop := ∀ k, k ∉ ks → t.reg k = s.reg k

/-- Every cell of memory reads as before. -/
def State.SameMem (s t : State) : Prop := ∀ a, t.mem.cell a = s.mem.cell a

/-- The run state and the error latch are as before. -/
def State.SameRun (s t : State) : Prop := t.run = s.run ∧ t.err = s.err

/-- The run state and the error latch are as before, or the fatal-error entry wrote both (R117). -/
def State.SameRunOrFatal (s t : State) : Prop :=
  s.SameRun t ∨ (t.run = .halted ∧ ∃ e, t.err = some e)

/-- The two states agree on everything an instruction can read: on all but `fl.L`, `fl.G` and `out`
(R15, R19). -/
def State.AgreeOnReadable (s t : State) : Prop :=
  t.mem = s.mem ∧ t.regs = s.regs ∧ t.pc = s.pc ∧ t.fl.equal = s.fl.equal ∧ t.run = s.run ∧
    t.err = s.err

/-- The instruction does not write `pc` itself and is not HLT, so stage 5 advances it (R72, R73). -/
def advances (i : Instr) (f : Flags) : Bool :=
  match i with
  | .ldi _ _ => true
  | .prn _ => true
  | .hlt => false
  | .mul _ _ => true
  | .push _ => true
  | .pop _ => true
  | .call _ => false
  | .ret => false
  | .add _ _ => true
  | .cmp _ _ => true
  | .jmp _ => false
  | .jeq _ => !f.equal
  | .jne _ => f.equal

end Sys2Proof.Machine
end

