-- ==== Sys2Proof/Certificates/Slice0/Obligations.lean ====
section
/-! DEFINITION. The statements for the provers, from the numbered rules of spec/ . Register operands
are bytes; `r.toNat = i.val` says that the byte `r` names register `i` (0..7). Every form is covered:
indices above 7 by `RegisterIndexChecked`, an advance past 255 by `SequentialAdvance`, an Empty stack
cell by `EmptyStackReadIsFatal`, operand bytes that are missing by `OperandFetchErrors`. -/

open Sys2Proof Sys2Proof.Machine

/-! ## Encoding -/

/-- What decodes is exactly what the encoder writes: no bit of an encoding is dropped, with every
operand at every value, and no other bytes decode (30_encoding.md sections 1 to 4; the opcode values are
the spec's decision D1, log 1). -/
def Obligations.DecodeIffEncode : Prop :=
  ∀ (bytes rest : List Byte) (i : Instr), decode bytes = .ok (i, rest) ↔ bytes = encode i ++ rest

/-- The 13 opcode bytes of 30_encoding.md section 3 with their operands (the values are the spec's
decision D1, log 1). -/
def Obligations.DecodesSpecWords : Prop :=
  ∀ (x y : Byte) (rest : List Byte),
    decode (0b00000001 :: rest) = .ok (.hlt, rest) ∧
    decode (0b00010001 :: rest) = .ok (.ret, rest) ∧
    decode (0b01000101 :: x :: rest) = .ok (.push x, rest) ∧
    decode (0b01000110 :: x :: rest) = .ok (.pop x, rest) ∧
    decode (0b01000111 :: x :: rest) = .ok (.prn x, rest) ∧
    decode (0b01010000 :: x :: rest) = .ok (.call x, rest) ∧
    decode (0b01010100 :: x :: rest) = .ok (.jmp x, rest) ∧
    decode (0b01010101 :: x :: rest) = .ok (.jeq x, rest) ∧
    decode (0b01010110 :: x :: rest) = .ok (.jne x, rest) ∧
    decode (0b10000010 :: x :: y :: rest) = .ok (.ldi x y, rest) ∧
    decode (0b10100000 :: x :: y :: rest) = .ok (.add x y, rest) ∧
    decode (0b10100010 :: x :: y :: rest) = .ok (.mul x y, rest) ∧
    decode (0b10100111 :: x :: y :: rest) = .ok (.cmp x y, rest)

/-- A byte is rejected as an opcode exactly when it is none of the 13 (30_encoding.md section 4; the
values are the spec's decision D1, log 1). -/
def Obligations.OnlyThirteenOpcodes : Prop :=
  ∀ (opc : Byte) (rest : List Byte),
    decode (opc :: rest) = .error (.unrecognized opc) ↔
      opc.toNat ∉ [0x01, 0x11, 0x45, 0x46, 0x47, 0x50, 0x54, 0x55, 0x56, 0x82, 0xA0, 0xA2, 0xA7]

/-- R53: operand count (so the length), and format (which operands are register indices), of each of the
13 instructions, from the static table. -/
def Obligations.StaticOperandTable : Prop :=
  ∀ x y : Byte,
    ((encode (.ldi x y)).length = 3 ∧ (Instr.ldi x y).regOperands = [x]) ∧
    ((encode (.prn x)).length = 2 ∧ (Instr.prn x).regOperands = [x]) ∧
    ((encode .hlt).length = 1 ∧ Instr.hlt.regOperands = []) ∧
    ((encode (.mul x y)).length = 3 ∧ (Instr.mul x y).regOperands = [x, y]) ∧
    ((encode (.push x)).length = 2 ∧ (Instr.push x).regOperands = [x]) ∧
    ((encode (.pop x)).length = 2 ∧ (Instr.pop x).regOperands = [x]) ∧
    ((encode (.call x)).length = 2 ∧ (Instr.call x).regOperands = [x]) ∧
    ((encode .ret).length = 1 ∧ Instr.ret.regOperands = []) ∧
    ((encode (.add x y)).length = 3 ∧ (Instr.add x y).regOperands = [x, y]) ∧
    ((encode (.cmp x y)).length = 3 ∧ (Instr.cmp x y).regOperands = [x, y]) ∧
    ((encode (.jmp x)).length = 2 ∧ (Instr.jmp x).regOperands = [x]) ∧
    ((encode (.jeq x)).length = 2 ∧ (Instr.jeq x).regOperands = [x]) ∧
    ((encode (.jne x)).length = 2 ∧ (Instr.jne x).regOperands = [x])

/-! ## The step -/

/-- When the bytes at `pc` decode to an instruction, the step is `exec` of it at that state: nothing is
added around it (`exec` itself advances or writes `pc`). 40_dispatch_system.md section 1. -/
def Obligations.StepRunsDecodedInstruction : Prop :=
  ∀ (s : State) (bytes rest : List Byte) (i : Instr),
    s.run = .running → s.mem.Holds s.pc.toNat bytes → decode bytes = .ok (i, rest) →
    step s = exec i s

/-- A step request while Halted does nothing, and driving the engine step by step changes nothing: `m + n`
steps are `n` steps from the state after `m` (40_dispatch_system.md section 1). That a request in Halted
answers the same state is DEDUCED (log 5; the spec's decision D9). -/
def Obligations.SteppingChangesNothing : Prop :=
  (∀ s : State, s.run = .halted → step s = .next s) ∧
  (∀ (m n : Nat) (s t : State), stepN m s = .next t → stepN (m + n) s = stepN n t)

/-- An opcode cell that holds none of the 13 opcode bytes, Empty included, is fatal, with its address and
value recorded; nothing else changes, `pc` included (60_exceptions.md section 1). The byte values are the
spec's decision D1 (log 1, PRESUMED), fatality and Empty its decisions D3 and D4 (logs 14 and 15), the
entry a next state D9 (log 4). -/
def Obligations.UnrecognizedOpcodeIsFatal : Prop :=
  ∀ (s : State) (c : CellValue),
    s.run = .running → s.mem.cell s.pc.toNat = c →
    (∀ opc : Byte, c = .byte opc →
      opc.toNat ∉ [0x01, 0x11, 0x45, 0x46, 0x47, 0x50, 0x54, 0x55, 0x56, 0x82, 0xA0, 0xA2, 0xA7]) →
    step s = .next { s with err := some (.unrecognizedOpcode s.pc.toNat c), run := .halted }

/-- Stage 3 of the step, errors (3) to (6) of the order of checks: operand bytes that lie above 255 or are
Empty, in address order, nothing else changed (40_dispatch_system.md section 1; the spec's decisions D4,
D5 and D8, logs 15, 16 and 19, the entry a next state D9, log 4). The first list is the opcodes with
operands, the second those with two; their byte values are the spec's decision D1 (log 1, PRESUMED). -/
def Obligations.OperandFetchErrors : Prop :=
  ∀ (s : State) (opc : Byte),
    s.run = .running → s.mem.cell s.pc.toNat = .byte opc →
    opc.toNat ∈ [0x45, 0x46, 0x47, 0x50, 0x54, 0x55, 0x56, 0x82, 0xA0, 0xA2, 0xA7] →
    (s.pc.toNat = 255 →
      step s = .next { s with err := some (.outOfBoundsMem 256), run := .halted }) ∧
    (s.pc.toNat < 255 → s.mem.cell (s.pc.toNat + 1) = .empty →
      step s = .next { s with err := some (.emptyRead (s.pc.toNat + 1)), run := .halted }) ∧
    (opc.toNat ∈ [0x82, 0xA0, 0xA2, 0xA7] → s.pc.toNat = 254 → s.mem.cell 255 ≠ .empty →
      step s = .next { s with err := some (.outOfBoundsMem 256), run := .halted }) ∧
    (opc.toNat ∈ [0x82, 0xA0, 0xA2, 0xA7] → s.pc.toNat < 254 →
      s.mem.cell (s.pc.toNat + 1) ≠ .empty → s.mem.cell (s.pc.toNat + 2) = .empty →
      step s = .next { s with err := some (.emptyRead (s.pc.toNat + 2)), run := .halted })

/-- Stage 3a of the step: every register operand is checked against 0..7 before anything is written, `op0`
then `op1`; the immediate of LDI never; and with all of them in range no such error is raised
(40_dispatch_system.md section 1; the spec's decision D8, log 19, the entry a next state D9, log 4). -/
def Obligations.RegisterIndexChecked : Prop :=
  (∀ mk ∈ ([.prn, .push, .pop, .call, .jmp, .jeq, .jne] : List (Byte → Instr)),
    ∀ (r : Byte) (s : State), 7 < r.toNat →
      exec (mk r) s = .next { s with err := some (.outOfBoundsReg r.toNat), run := .halted }) ∧
  (∀ mk ∈ ([.add, .mul, .cmp] : List (Byte → Byte → Instr)), ∀ (a b : Byte) (s : State),
    (7 < a.toNat →
      exec (mk a b) s = .next { s with err := some (.outOfBoundsReg a.toNat), run := .halted }) ∧
    (a.toNat ≤ 7 → 7 < b.toNat →
      exec (mk a b) s = .next { s with err := some (.outOfBoundsReg b.toNat), run := .halted })) ∧
  (∀ (r v : Byte) (s : State), 7 < r.toNat →
    exec (.ldi r v) s = .next { s with err := some (.outOfBoundsReg r.toNat), run := .halted }) ∧
  (∀ (i : Instr) (s t : State) (n : Nat), (∀ op ∈ i.regOperands, op.toNat ≤ 7) → s.err = none →
    exec i s = .next t → t.err ≠ some (.outOfBoundsReg n))

/-- Stage 5 of the step: an instruction that does not write `pc` and is not HLT advances it by its length;
past 255 its own writes stay, `pc` is unchanged and OutOfBounds(Pc, next) is taken
(40_dispatch_system.md section 1; past 255 the spec's decision D5, log 16, the entry a next state D9, log
4; that HLT does not advance D6, log 17). Its own writes are `u`, what it does at `pc = 0`, where there is
room. -/
def Obligations.SequentialAdvance : Prop :=
  ∀ (i : Instr) (s u : State),
    advances i s.fl = true → WellFormed i →
    (∀ r, i = .pop r → s.mem.cell s.sp.toNat ≠ .empty) →
    exec i { s with pc := 0 } = .next u →
    u.pc.toNat = i.length ∧ u.run = s.run ∧ u.err = s.err ∧
    (s.pc.toNat + i.length ≤ 255 →
      exec i s = .next { u with pc := BitVec.ofNat 8 (s.pc.toNat + i.length) }) ∧
    (255 < s.pc.toNat + i.length →
      exec i s = .next { u with
        pc := s.pc
        err := some (.outOfBoundsPc (s.pc.toNat + i.length))
        run := .halted })

/-- 60_exceptions.md sections 2 and 3: a step that raises an error leaves everything but `run` and `err` as
it was, `pc` naming the faulting instruction; the advance's error alone comes after the instruction's own
writes, which are those it makes at `pc = 0`; and no step follows. The order of checks is the spec's
decision D8 (log 19), the advance's error D5 (log 16), the entry a next state and a step in Halted D9
(logs 4 and 5). -/
def Obligations.FatalErrorsArePrecise : Prop :=
  ∀ (s t : State) (e : FatalError),
    s.run = .running → s.err = none → step s = .next t → t.err = some e →
    t.run = .halted ∧ t.pc = s.pc ∧ step t = .next t ∧
    ((∀ n, e ≠ .outOfBoundsPc n) →
      t.mem = s.mem ∧ t.regs = s.regs ∧ t.fl = s.fl ∧ t.out = s.out) ∧
    (∀ n, e = .outOfBoundsPc n → ∃ i u, fetch s = .ok i ∧ exec i { s with pc := 0 } = .next u ∧
      u.err = none ∧ t = { u with pc := s.pc, err := some e, run := .halted })

/-- Every meaning and every step answers a next state: no instruction faults, none is refused, nothing
stalls a Running engine (41_data_alu.md section 4, 70_reset_and_hazards.md section 5). That a fatal error
and a step in Halted answer a next state is the model's choice (logs 4 and 5; the spec's decision D9);
no fault is the spec's decision D15 (log 13), no stall its decision D14 (log 22). It says nothing of what an
instruction does and is no completion statement. -/
def Obligations.EveryStepAnswersNext : Prop :=
  (∀ (i : Instr) (s : State), ∃ t, exec i s = .next t) ∧ ∀ s : State, ∃ t, step s = .next t

/-! ## Run state and error latch -/

/-- 10_state.md section 6 (the spec's decision D9, logs 4 and 5): Running after reset; Halted is entered by
HLT or by a fatal error and in no other way; in Halted nothing changes, however many steps are requested;
reset leaves it. That HLT is the byte 0x01 is the spec's decision D1 (log 1, PRESUMED), that it leaves
`pc` unchanged its decision D6 (log 17). -/
def Obligations.HaltedEnteredTwoWays : Prop :=
  State.reset.run = .running ∧
  (∀ s t : State, s.run = .running → s.err = none → step s = .next t → t.run = .halted →
    (s.mem.cell s.pc.toNat = .byte 0x01 ∧ t = { s with run := .halted }) ∨ ∃ e, t.err = some e) ∧
  (∀ (s : State) (n : Nat), s.run = .halted → stepN n s = .next s) ∧
  (∀ s : State, s.resetInput = State.reset)

/-- The latch is `None` from reset until a fatal error, a step that sets it halts, and once set it is
never cleared or overwritten, in every state that meets the invariant (10_state.md section 6; the spec's
decision D9, logs 4 and 5). -/
def Obligations.ErrorLatchIsSticky : Prop :=
  State.reset.err = none ∧
  (∀ s t : State, s.err = none → step s = .next t → t.err ≠ none → t.Faulted) ∧
  (∀ (s t : State) (n : Nat), s.Inv → s.err ≠ none → stepN n s = .next t → t.err = s.err)

/-! ## Invariants -/

/-- Every step keeps memory canonical and inside 0..255, at most one flag set, and `err` set only if Halted
(10_state.md section 9; the canonical form is the model's, log 10, `err` the spec's decision D9, log 4). -/
def Obligations.StepKeepsInvariant : Prop :=
  ∀ s t : State, s.Inv → step s = .next t → t.Inv

/-- Reset meets the invariant: memory canonical and inside 0..255, at most one flag set, and `err` set only
if Halted (10_state.md sections 8 and 9). The canonical form is the model's (log 10), flags clear at reset
DEDUCED (log 3), `err` the spec's decision D9 (log 4). -/
def Obligations.ResetMeetsInvariant : Prop := State.reset.Inv

/-- The invariant holds in every state a run from any launch reaches (10_state.md section 9,
70_reset_and_hazards.md section 2). The canonical form is the model's (log 10), so is how a program comes
to run (log 8), and the launch premises are the spec's decision D13 (log 21). -/
def Obligations.LaunchedRunsKeepInvariant : Prop :=
  ∀ (p : List Byte) (s t : State) (n : Nat), launch p = some s → stepN n s = .next t → t.Inv

/-- 10_state.md section 5: flags clear after reset (DEDUCED, log 3), at most one set ever, exactly one after a
CMP; before it (Equal clear) JEQ does not branch and JNE branches. That "exactly one stays 1 from the
first CMP until reset" is the spec's own inference, marked there as derived from R15, R22 and R100. -/
def Obligations.FlagsExactlyOneFromFirstCmp : Prop :=
  State.reset.fl = { equal := false, less := false, greater := false } ∧
  (∀ s t : State, s.fl.AtMostOne → step s = .next t → t.fl.AtMostOne) ∧
  (∀ (a b : Byte) (s t : State), a.toNat ≤ 7 → b.toNat ≤ 7 → exec (.cmp a b) s = .next t →
    t.fl.ExactlyOne) ∧
  (∀ s t : State, s.fl.ExactlyOne → step s = .next t → t.fl.ExactlyOne) ∧
  (∀ (r : Byte) (i : RegIndex) (s : State), r.toNat = i.val →
    s.fl = { equal := false, less := false, greater := false } →
    (s.pc.toNat + 2 ≤ 255 →
      exec (.jeq r) s = .next { s with pc := BitVec.ofNat 8 (s.pc.toNat + 2) }) ∧
    exec (.jne r) s = .next { s with pc := s.reg i })

/-! ## Who writes what -/

/-- Only CMP writes flags (10_state.md section 5). -/
def Obligations.FlagsWrittenOnlyByCmp : Prop :=
  ∀ (i : Instr) (s t : State), exec i s = .next t → t.fl ≠ s.fl → ∃ a b, i = .cmp a b

/-- Only PUSH and CALL write memory, and only at `(sp - 1) mod 256`; a written cell never becomes Empty
again (20_memory.md section 1, 10_state.md section 2). -/
def Obligations.MemoryWrittenOnlyByPushes : Prop :=
  (∀ (i : Instr) (s t : State) (a : Nat), exec i s = .next t → t.mem.cell a ≠ s.mem.cell a →
    ((∃ r, i = .push r) ∨ ∃ r, i = .call r) ∧ a = ((s.reg 7).toNat + 255) % 256) ∧
  (∀ (s t : State) (a : Nat), s.mem.cell a ≠ .empty → step s = .next t → t.mem.cell a ≠ .empty)

/-- The output sink only grows, by the one value of a PRN (10_state.md section 6; its form is the spec's
decision D10, log 12). -/
def Obligations.OutputGrowsOnlyByPrn : Prop :=
  ∀ (i : Instr) (s t : State), exec i s = .next t →
    t.out = s.out ∨
      ∃ (r : Byte) (k : RegIndex), i = .prn r ∧ r.toNat = k.val ∧ t.out = s.out ++ [s.reg k]

/-- Nothing reads Less, Greater or the output sink: two states that agree on the rest step to states
that agree on the rest, and append the same values (10_state.md sections 5 and 6). -/
def Obligations.UnreadStateNeverInfluences : Prop :=
  ∀ s s' t : State, s.AgreeOnReadable s' → step s = .next t →
    ∃ t' vs, step s' = .next t' ∧ t.AgreeOnReadable t' ∧ t.out = s.out ++ vs ∧ t'.out = s'.out ++ vs

/-! ## Frames: what an instruction leaves unchanged whenever it answers a next state, a fatal error's
included -/

/-- LDI, ADD, MUL change register `op0` and `pc`; `run` and `err` only by a fatal error's entry (log 4).
41_data_alu.md sections 1 to 3. -/
def Obligations.FrameOfLdiAddMul : Prop :=
  ∀ (a b : Byte) (s t : State), ∀ i ∈ [Instr.ldi a b, .add a b, .mul a b], exec i s = .next t →
    (∀ k : RegIndex, k.val ≠ a.toNat → t.reg k = s.reg k) ∧ s.SameMem t ∧ t.fl = s.fl ∧
    t.out = s.out ∧ s.SameRunOrFatal t

/-- PRN, CMP, JMP, JEQ, JNE, HLT change no register and no byte of memory; CMP alone changes flags, PRN
alone the output, HLT alone halts with no error; the others change `run` and `err` only by a fatal error's
entry (log 4). 40_dispatch_system.md sections 2 and 3, 43_compare_branch.md sections 1 to 4; that HLT
leaves `pc` unchanged is the spec's decision D6 (log 17). -/
def Obligations.FrameOfPrnCmpJumpsHlt : Prop :=
  ∀ (a b : Byte) (s t : State),
    ∀ i ∈ [Instr.prn a, .cmp a b, .jmp a, .jeq a, .jne a, .hlt], exec i s = .next t →
    s.SameRegsBut t [] ∧ s.SameMem t ∧ (i ≠ .cmp a b → t.fl = s.fl) ∧
    (i ≠ .prn a → t.out = s.out) ∧ (i ≠ .hlt → s.SameRunOrFatal t) ∧
    (i = .hlt → t.pc = s.pc ∧ t.err = s.err ∧ t.run = .halted)

/-- POP changes register `op0`, register 7 and `pc`; RET register 7 and `pc`; `run` and `err` only by a
fatal error's entry (log 4). 42_stack_subroutine.md sections 3 and 5. -/
def Obligations.FrameOfPopRet : Prop :=
  ∀ (r : Byte) (s t : State),
    (exec (.pop r) s = .next t →
      (∀ k : RegIndex, k.val ≠ r.toNat → k ≠ 7 → t.reg k = s.reg k) ∧ s.SameMem t ∧ t.fl = s.fl ∧
      t.out = s.out ∧ s.SameRunOrFatal t) ∧
    (exec .ret s = .next t →
      s.SameRegsBut t [7] ∧ s.SameMem t ∧ t.fl = s.fl ∧ t.out = s.out ∧ s.SameRunOrFatal t)

/-- PUSH and CALL change register 7, `pc` and the one byte stored to, whose address is `pushAddr s`,
`(sp - 1) mod 256`; `run` and `err` only by a fatal error's entry (log 4). 42_stack_subroutine.md sections
1, 2 and 4. -/
def Obligations.FrameOfPushCall : Prop :=
  ∀ (r : Byte) (s t : State), ∀ i ∈ [Instr.push r, .call r], exec i s = .next t →
    s.SameRegsBut t [7] ∧
    (∀ a, pushAddr s = a → a = ((s.reg 7).toNat + 255) % 256 ∧
      ∀ x, x ≠ a → t.mem.cell x = s.mem.cell x) ∧
    t.fl = s.fl ∧ t.out = s.out ∧ s.SameRunOrFatal t

/-! ## Results: every instruction completes, and what it leaves -/

/-- LDI: `x[op0] <- op1`, `pc + 3` (41_data_alu.md section 1). -/
def Obligations.LdiCompletes : Prop :=
  ∀ (r v : Byte) (i : RegIndex) (s : State), r.toNat = i.val → s.pc.toNat + 3 ≤ 255 →
    ∃ t, exec (.ldi r v) s = .next t ∧ t.reg i = v ∧ s.SameRegsBut t [i] ∧
      t.pc.toNat = s.pc.toNat + 3 ∧ s.SameMem t ∧ t.fl = s.fl ∧ t.out = s.out ∧ s.SameRun t

/-- ADD: `x[op0] <- (x[op0] + x[op1]) mod 256`, `pc + 3`, no flag (41_data_alu.md section 2). -/
def Obligations.AddCompletes : Prop :=
  ∀ (a b : Byte) (i j : RegIndex) (s : State),
    a.toNat = i.val → b.toNat = j.val → s.pc.toNat + 3 ≤ 255 →
    ∃ t, exec (.add a b) s = .next t ∧
      (t.reg i).toNat = ((s.reg i).toNat + (s.reg j).toNat) % 256 ∧ s.SameRegsBut t [i] ∧
      t.pc.toNat = s.pc.toNat + 3 ∧ s.SameMem t ∧ t.fl = s.fl ∧ t.out = s.out ∧ s.SameRun t

/-- MUL: `x[op0] <- (x[op0] * x[op1]) mod 256`, `pc + 3`, no flag (41_data_alu.md section 3). -/
def Obligations.MulCompletes : Prop :=
  ∀ (a b : Byte) (i j : RegIndex) (s : State),
    a.toNat = i.val → b.toNat = j.val → s.pc.toNat + 3 ≤ 255 →
    ∃ t, exec (.mul a b) s = .next t ∧
      (t.reg i).toNat = ((s.reg i).toNat * (s.reg j).toNat) % 256 ∧ s.SameRegsBut t [i] ∧
      t.pc.toNat = s.pc.toNat + 3 ∧ s.SameMem t ∧ t.fl = s.fl ∧ t.out = s.out ∧ s.SameRun t

/-- PRN: `out <- out ++ [x[op0]]`, `pc + 2` (40_dispatch_system.md section 3; the form of `out` is the spec's
decision D10, log 12). -/
def Obligations.PrnCompletes : Prop :=
  ∀ (r : Byte) (i : RegIndex) (s : State), r.toNat = i.val → s.pc.toNat + 2 ≤ 255 →
    ∃ t, exec (.prn r) s = .next t ∧ t.out = s.out ++ [s.reg i] ∧ s.SameRegsBut t [] ∧
      t.pc.toNat = s.pc.toNat + 2 ∧ s.SameMem t ∧ t.fl = s.fl ∧ s.SameRun t

/-- HLT: `run <- Halted` and nothing else, `pc` unchanged, at every address
(40_dispatch_system.md section 2; `pc` unchanged is the spec's decision D6, log 17). -/
def Obligations.HltCompletes : Prop :=
  ∀ s : State, exec .hlt s = .next { s with run := .halted }

/-- PUSH: `sp <- (sp - 1) mod 256`, then the register, read after the decrement, is stored there;
`pc + 2` (42_stack_subroutine.md sections 1 and 2). -/
def Obligations.PushCompletes : Prop :=
  ∀ (r : Byte) (i : RegIndex) (s : State), r.toNat = i.val → s.pc.toNat + 2 ≤ 255 →
    ∃ t, exec (.push r) s = .next t ∧
      (t.reg 7).toNat = ((s.reg 7).toNat + 255) % 256 ∧ s.SameRegsBut t [7] ∧
      (∀ a, pushAddr s = a → a = ((s.reg 7).toNat + 255) % 256 ∧
        t.mem.cell a = .byte (if i = 7 then t.reg 7 else s.reg i) ∧
        ∀ x, x ≠ a → t.mem.cell x = s.mem.cell x) ∧
      t.pc.toNat = s.pc.toNat + 2 ∧ t.fl = s.fl ∧ t.out = s.out ∧ s.SameRun t

/-- POP: `x[op0]` takes the byte at `sp`, then register 7, read after that write, is incremented;
`pc + 2` (42_stack_subroutine.md section 3; log 6). -/
def Obligations.PopCompletes : Prop :=
  ∀ (r v : Byte) (i : RegIndex) (s : State),
    r.toNat = i.val → s.mem.cell (s.reg 7).toNat = .byte v → s.pc.toNat + 2 ≤ 255 →
    ∃ t, exec (.pop r) s = .next t ∧
      (i ≠ 7 → t.reg i = v ∧ (t.reg 7).toNat = ((s.reg 7).toNat + 1) % 256) ∧
      (i = 7 → (t.reg 7).toNat = (v.toNat + 1) % 256) ∧ s.SameRegsBut t [i, 7] ∧
      t.pc.toNat = s.pc.toNat + 2 ∧ s.SameMem t ∧ t.fl = s.fl ∧ t.out = s.out ∧ s.SameRun t

/-- CALL: `(pc + 2) mod 256` is pushed, then `pc <- x[op0]`, read after the push
(42_stack_subroutine.md section 4). -/
def Obligations.CallCompletes : Prop :=
  ∀ (r : Byte) (i : RegIndex) (s : State), r.toNat = i.val →
    ∃ (t : State) (back : Byte), exec (.call r) s = .next t ∧
      (t.reg 7).toNat = ((s.reg 7).toNat + 255) % 256 ∧ s.SameRegsBut t [7] ∧
      back.toNat = (s.pc.toNat + 2) % 256 ∧
      (∀ a, pushAddr s = a → a = ((s.reg 7).toNat + 255) % 256 ∧ t.mem.cell a = .byte back ∧
        ∀ x, x ≠ a → t.mem.cell x = s.mem.cell x) ∧
      t.pc = (if i = 7 then t.reg 7 else s.reg i) ∧ t.fl = s.fl ∧ t.out = s.out ∧ s.SameRun t

/-- RET: `pc` takes the byte at `sp`, `sp <- (sp + 1) mod 256` (42_stack_subroutine.md section 5). -/
def Obligations.RetCompletes : Prop :=
  ∀ (v : Byte) (s : State), s.mem.cell (s.reg 7).toNat = .byte v →
    ∃ t, exec .ret s = .next t ∧ t.pc = v ∧ (t.reg 7).toNat = ((s.reg 7).toNat + 1) % 256 ∧
      s.SameRegsBut t [7] ∧ s.SameMem t ∧ t.fl = s.fl ∧ t.out = s.out ∧ s.SameRun t

/-- CMP: the three flags from the unsigned values, `pc + 3` (43_compare_branch.md section 1; the
direction of Less and Greater is the spec's decision D7, log 18). -/
def Obligations.CmpCompletes : Prop :=
  ∀ (a b : Byte) (i j : RegIndex) (s : State),
    a.toNat = i.val → b.toNat = j.val → s.pc.toNat + 3 ≤ 255 →
    ∃ t, exec (.cmp a b) s = .next t ∧
      (t.fl.equal = true ↔ (s.reg i).toNat = (s.reg j).toNat) ∧
      (t.fl.less = true ↔ (s.reg i).toNat < (s.reg j).toNat) ∧
      (t.fl.greater = true ↔ (s.reg j).toNat < (s.reg i).toNat) ∧ s.SameRegsBut t [] ∧
      t.pc.toNat = s.pc.toNat + 3 ∧ s.SameMem t ∧ t.out = s.out ∧ s.SameRun t

/-- JMP: `pc <- x[op0]` and nothing else (43_compare_branch.md section 2). -/
def Obligations.JmpCompletes : Prop :=
  ∀ (r : Byte) (i : RegIndex) (s : State), r.toNat = i.val →
    exec (.jmp r) s = .next { s with pc := s.reg i }

/-- JEQ: `pc <- x[op0]` if Equal, else `pc + 2`, and nothing else (43_compare_branch.md section 3). -/
def Obligations.JeqCompletes : Prop :=
  ∀ (r : Byte) (i : RegIndex) (s : State), r.toNat = i.val →
    (s.fl.equal = true → exec (.jeq r) s = .next { s with pc := s.reg i }) ∧
    (s.fl.equal = false → s.pc.toNat + 2 ≤ 255 →
      exec (.jeq r) s = .next { s with pc := BitVec.ofNat 8 (s.pc.toNat + 2) })

/-- JNE: `pc <- x[op0]` if not Equal, else `pc + 2`, and nothing else
(43_compare_branch.md section 4). -/
def Obligations.JneCompletes : Prop :=
  ∀ (r : Byte) (i : RegIndex) (s : State), r.toNat = i.val →
    (s.fl.equal = false → exec (.jne r) s = .next { s with pc := s.reg i }) ∧
    (s.fl.equal = true → s.pc.toNat + 2 ≤ 255 →
      exec (.jne r) s = .next { s with pc := BitVec.ofNat 8 (s.pc.toNat + 2) })

/-- POP and RET on an Empty cell at `sp` take EmptyRead(sp) and write nothing else
(42_stack_subroutine.md section 1; the spec's decision D4, log 15, the entry a next state D9, log 4). -/
def Obligations.EmptyStackReadIsFatal : Prop :=
  ∀ s : State, s.mem.cell (s.reg 7).toNat = .empty →
    (∀ r : Byte, r.toNat ≤ 7 →
      exec (.pop r) s = .next { s with err := some (.emptyRead (s.reg 7).toNat), run := .halted }) ∧
    exec .ret s = .next { s with err := some (.emptyRead (s.reg 7).toNat), run := .halted }

/-! ## The arithmetic unit and memory -/

/-- 41_data_alu.md section 4 (the spec's decision D15, log 13): the unit adds or multiplies modulo 256 into
`a`, writes nothing else, fails with UnsupportedOperation on every other selector, and no instruction makes
it fail. -/
def Obligations.AluSupportsAddMulOnly : Prop :=
  (∀ (a b : RegIndex) (s : State),
    (∃ t, alu .ADD a b s = .next t ∧
      (t.reg a).toNat = ((s.reg a).toNat + (s.reg b).toNat) % 256 ∧
      t = { s with regs := t.regs } ∧ s.SameRegsBut t [a]) ∧
    (∃ t, alu .MUL a b s = .next t ∧
      (t.reg a).toNat = ((s.reg a).toNat * (s.reg b).toNat) % 256 ∧
      t = { s with regs := t.regs } ∧ s.SameRegsBut t [a])) ∧
  (∀ (op : Mnemonic) (a b : RegIndex) (s : State), op ≠ .ADD → op ≠ .MUL →
    alu op a b s = .fault (.unsupportedOperation op)) ∧
  (∀ (i : Instr) (s : State) (op : Mnemonic), exec i s ≠ .fault (.unsupportedOperation op))

/-- MemRead above 255 raises OutOfBounds(Mem, a), of an Empty cell EmptyRead(a), of any other it delivers
the byte (20_memory.md section 2; Empty is the spec's decision D4, log 15). -/
def Obligations.MemReadCases : Prop :=
  ∀ (a : Nat) (s : State),
    (255 < a → memRead a s = .error (.outOfBoundsMem a)) ∧
    (a ≤ 255 → s.mem.cell a = .empty → memRead a s = .error (.emptyRead a)) ∧
    (∀ v, a ≤ 255 → s.mem.cell a = .byte v → memRead a s = .ok v)

/-- 20_memory.md section 2: MemWrite above 255 raises OutOfBounds(Mem, a); any other stores `v mod 256`, so
that the cell is not Empty, reads back, and no other cell and no other state changes; CALL at `pc = 254`
stores 0. That memory keeps its canonical form is the model's own clause (log 10). That every address an
instruction writes is `(sp - 1) mod 256`, so that no instruction raises OutOfBounds(Mem, a), is the
spec's own inference, marked there as derived from R31. -/
def Obligations.MemWriteStoresOneCell : Prop :=
  (∀ (a v : Nat) (s : State),
    (255 < a → memWrite a v s = .error (.outOfBoundsMem a)) ∧
    (a ≤ 255 → ∃ (t : State) (b : Byte), memWrite a v s = .ok t ∧ b.toNat = v % 256 ∧
      t.mem.cell a = .byte b ∧ memRead a t = .ok b ∧
      (∀ x, x ≠ a → t.mem.cell x = s.mem.cell x) ∧ t = { s with mem := t.mem } ∧
      (s.mem.wf → t.mem.wf))) ∧
  (∀ (i : Instr) (s t : State) (a : Nat), exec i s = .next t → t.mem.cell a ≠ s.mem.cell a →
    a = ((s.reg 7).toNat + 255) % 256) ∧
  (∀ (i : Instr) (s t : State) (a : Nat), s.err = none → exec i s = .next t →
    t.err ≠ some (.outOfBoundsMem a)) ∧
  (∀ (r : Byte) (s t : State), r.toNat ≤ 7 → s.pc.toNat = 254 → exec (.call r) s = .next t →
    t.mem.cell (((s.reg 7).toNat + 255) % 256) = .byte 0)

/-- R90: the push mechanic. `sp` is decremented modulo 256 first, `v` is evaluated after that, and
`v mod 256` is stored at the new `sp`; nothing else changes and nothing is raised. -/
def Obligations.PushMechanic : Prop :=
  ∀ (v : State → Nat) (s : State), ∃ (d t : State) (b : Byte),
    push v s = .ok t ∧
    (d.reg 7).toNat = ((s.reg 7).toNat + 255) % 256 ∧ s.SameRegsBut d [7] ∧
    d = { s with regs := d.regs } ∧
    b.toNat = v d % 256 ∧ t.mem.cell (d.reg 7).toNat = .byte b ∧
    (∀ x, x ≠ (d.reg 7).toNat → t.mem.cell x = s.mem.cell x) ∧ t = { d with mem := t.mem }

/-! ## Laws across instructions -/

/-- PUSH then POP on the same register leaves every register as it was, `sp` included, `r7` included
(42_stack_subroutine.md section 3, property; for `r7` POP's order of writes is DEDUCED, log 6). -/
def Obligations.PushThenPopRestores : Prop :=
  ∀ (r : Byte) (s : State), r.toNat ≤ 7 → s.pc.toNat + 4 ≤ 255 →
    ∃ t u, exec (.push r) s = .next t ∧ exec (.pop r) t = .next u ∧ u.regs = s.regs ∧
      u.pc.toNat = s.pc.toNat + 4

/-- CALL goes to the callee and pushes exactly one return address; a RET with the stack as CALL left it
continues after CALL's two bytes, with every register as before (42_stack_subroutine.md section 4,
property). The state `u` at the RET is any state with CALL's memory and registers. -/
def Obligations.CallThenRetReturns : Prop :=
  ∀ (r : Byte) (s : State), r.toNat ≤ 7 →
    ∃ t, exec (.call r) s = .next t ∧
      ∀ u : State, u.mem = t.mem → u.regs = t.regs →
        ∃ v, exec .ret u = .next v ∧ v.regs = s.regs ∧ v.pc.toNat = (s.pc.toNat + 2) % 256

/-- CMP followed by JEQ branches if and only if the two registers were equal, CMP followed by JNE if and
only if they were unequal (43_compare_branch.md sections 3 and 4). -/
def Obligations.CompareThenBranch : Prop :=
  ∀ (a b r : Byte) (i j k : RegIndex) (s : State),
    a.toNat = i.val → b.toNat = j.val → r.toNat = k.val → s.pc.toNat + 5 ≤ 255 →
    ∃ t e n, exec (.cmp a b) s = .next t ∧ exec (.jeq r) t = .next e ∧ exec (.jne r) t = .next n ∧
      (s.reg i = s.reg j → e.pc = s.reg k ∧ n.pc.toNat = s.pc.toNat + 5) ∧
      (s.reg i ≠ s.reg j → e.pc.toNat = s.pc.toNat + 5 ∧ n.pc = s.reg k)

/-- A byte stored by PUSH or CALL where the next instruction stands is what the very next step decodes,
with the bytes that stood after it (20_memory.md section 5). -/
def Obligations.StoreSeenByNextFetch : Prop :=
  ∀ (r v : Byte) (k : RegIndex) (s t : State) (tail rest : List Byte) (j : Instr),
    r.toNat = k.val → t.run = .running → t.pc.toNat = pushAddr s →
    s.mem.Holds (pushAddr s + 1) tail → decode (v :: tail) = .ok (j, rest) →
    (exec (.push r) s = .next t → v = (if k = 7 then s.reg 7 - 1 else s.reg k) →
      step t = exec j t) ∧
    (exec (.call r) s = .next t → v.toNat = (s.pc.toNat + 2) % 256 → step t = exec j t)

/-! ## Reset and launch -/

/-- The value of every piece of state after reset (10_state.md section 8). x[0] to x[6] = 0 and flags clear
are DEDUCED (log 3), x[7] = 0xF4 is the spec's decision D2 (log 2), Empty cells its decision D4 (log 15),
`err` and `out` its decisions D9 and D10 (logs 4 and 12). -/
def Obligations.ResetValues : Prop :=
  (∀ a, State.reset.mem.cell a = .empty) ∧
  (∀ k : RegIndex, k ≠ 7 → State.reset.reg k = 0) ∧ State.reset.reg 7 = 0xF4 ∧
  State.reset.pc = 0 ∧ State.reset.fl = { equal := false, less := false, greater := false } ∧
  State.reset.run = .running ∧ State.reset.err = none ∧ State.reset.out = []

/-- 70_reset_and_hazards.md section 2: launch writes the program from address 0, leaves every other cell Empty
and every other piece of state at its reset value; a program of more than 256 bytes has no launch (the
spec's decision D13, log 21). What reset leaves rests on logs 2 and 3, how a program comes to run on log
8. -/
def Obligations.LaunchContract : Prop :=
  ∀ p : List Byte,
    (p.length ≤ 256 → ∃ s, launch p = some s ∧
      (∀ (k : Nat) (h : k < p.length), s.mem.cell k = .byte p[k]) ∧
      (∀ a, p.length ≤ a → s.mem.cell a = .empty) ∧ s = { State.reset with mem := s.mem }) ∧
    (256 < p.length → launch p = none)
end

