-- ==== Sys2Proof/Laws/Decode.lean ====
section
/-! SUPPORT. The decoder: what the table lookup answers, and decoding of an opcode byte by its format. -/

namespace Sys2Proof

/-- The 13 opcode bytes and their formats, one equation each. -/
@[simp] theorem lookupOpcode_hlt : lookupOpcode 0x01 = some (.Z .hlt) := rfl
@[simp] theorem lookupOpcode_ret : lookupOpcode 0x11 = some (.Z .ret) := rfl
@[simp] theorem lookupOpcode_push : lookupOpcode 0x45 = some (.R .push) := rfl
@[simp] theorem lookupOpcode_pop : lookupOpcode 0x46 = some (.R .pop) := rfl
@[simp] theorem lookupOpcode_prn : lookupOpcode 0x47 = some (.R .prn) := rfl
@[simp] theorem lookupOpcode_call : lookupOpcode 0x50 = some (.R .call) := rfl
@[simp] theorem lookupOpcode_jmp : lookupOpcode 0x54 = some (.R .jmp) := rfl
@[simp] theorem lookupOpcode_jeq : lookupOpcode 0x55 = some (.R .jeq) := rfl
@[simp] theorem lookupOpcode_jne : lookupOpcode 0x56 = some (.R .jne) := rfl
@[simp] theorem lookupOpcode_ldi : lookupOpcode 0x82 = some (.RI .ldi) := rfl
@[simp] theorem lookupOpcode_add : lookupOpcode 0xA0 = some (.RR .add) := rfl
@[simp] theorem lookupOpcode_mul : lookupOpcode 0xA2 = some (.RR .mul) := rfl
@[simp] theorem lookupOpcode_cmp : lookupOpcode 0xA7 = some (.RR .cmp) := rfl

/-- A row the lookup answers is a row of the table under that opcode byte. -/
theorem mem_of_lookupOpcode {opc : Byte} {l : Layout} (h : lookupOpcode opc = some l) :
    (opc, l) ∈ opcodeTable := by
  obtain ⟨row, hrow, rfl⟩ := Option.map_eq_some_iff.1 h
  have hb : row.1 = opc := by simpa using List.find?_some hrow
  have hm := List.mem_of_find?_eq_some hrow
  rw [← hb]
  exact hm

/-- The lookup answers no row exactly when no row of the table has that opcode byte. -/
theorem lookupOpcode_eq_none {opc : Byte} :
    lookupOpcode opc = none ↔ ∀ row ∈ opcodeTable, row.1 ≠ opc := by
  simp [lookupOpcode, List.find?_eq_none]

@[simp] theorem decode_nil : decode [] = .error .noOpcode := rfl

theorem decode_unrecognized {opc : Byte} (h : lookupOpcode opc = none) (rest : List Byte) :
    decode (opc :: rest) = .error (.unrecognized opc) := by simp [decode, h]

theorem decode_of_takeOperands {opc : Byte} {l : Layout} {rest : List Byte} {r : Instr × List Byte}
    (h : lookupOpcode opc = some l) (hr : l.takeOperands rest = some r) :
    decode (opc :: rest) = .ok r := by simp [decode, h, hr]

theorem decode_missingOperand {opc : Byte} {l : Layout} {rest : List Byte}
    (h : lookupOpcode opc = some l) (hr : l.takeOperands rest = none) :
    decode (opc :: rest) = .error (.missingOperand opc) := by simp [decode, h, hr]

/-- What decoding can succeed on: a table row's opcode byte, with its operands after it. -/
theorem decode_ok {bytes rest : List Byte} {i : Instr} (h : decode bytes = .ok (i, rest)) :
    ∃ opc tail l, bytes = opc :: tail ∧ lookupOpcode opc = some l ∧
      l.takeOperands tail = some (i, rest) := by
  cases bytes with
  | nil => cases h
  | cons opc tail =>
    cases hl : lookupOpcode opc with
    | none => rw [decode_unrecognized hl] at h; cases h
    | some l =>
      cases ht : l.takeOperands tail with
      | none => rw [decode_missingOperand hl ht] at h; cases h
      | some r =>
        rw [decode_of_takeOperands hl ht] at h
        cases h
        exact ⟨opc, tail, l, rfl, hl, ht⟩

/-- What taking the operands can answer, by the format. -/
theorem takeOperands_some {l : Layout} {tail rest : List Byte} {i : Instr}
    (h : l.takeOperands tail = some (i, rest)) :
    (l = .Z i ∧ tail = rest) ∨
      (∃ mk op0, l = .R mk ∧ i = mk op0 ∧ tail = op0 :: rest) ∨
      (∃ mk op0 op1, (l = .RR mk ∨ l = .RI mk) ∧ i = mk op0 op1 ∧ tail = op0 :: op1 :: rest) := by
  cases l with
  | Z j => cases h; exact .inl ⟨rfl, rfl⟩
  | R mk =>
    match tail, h with
    | op0 :: _, h => cases h; exact .inr (.inl ⟨mk, op0, rfl, rfl, rfl⟩)
  | RR mk =>
    match tail, h with
    | op0 :: op1 :: _, h => cases h; exact .inr (.inr ⟨mk, op0, op1, .inl rfl, rfl, rfl⟩)
  | RI mk =>
    match tail, h with
    | op0 :: op1 :: _, h => cases h; exact .inr (.inr ⟨mk, op0, op1, .inr rfl, rfl, rfl⟩)

end Sys2Proof
end

