-- ==== Sys2Proof/Laws/State.lean ====
section
/-! SUPPORT. The register file and the named updates of the state: one lemma per field per update. -/

namespace Sys2Proof.Machine

/-- Reading the register just written gives the value written. -/
@[simp] theorem RegFile.get_set_same (f : RegFile) (i : RegIndex) (v : Byte) :
    (f.set i v).get i = v := by
  fin_cases i <;> rfl

/-- A write leaves every other register alone. -/
theorem RegFile.get_set_ne (f : RegFile) {i k : RegIndex} (v : Byte) (h : k ≠ i) :
    (f.set i v).get k = f.get k := by
  fin_cases i <;> fin_cases k <;> first | rfl | exact absurd rfl h

/-- Two register files that read alike are equal. -/
theorem RegFile.ext_get {f g : RegFile} (h : ∀ i, f.get i = g.get i) : f = g := by
  obtain ⟨a0, a1, a2, a3, a4, a5, a6, a7⟩ := f
  obtain ⟨b0, b1, b2, b3, b4, b5, b6, b7⟩ := g
  have h0 : a0 = b0 := h 0
  have h1 : a1 = b1 := h 1
  have h2 : a2 = b2 := h 2
  have h3 : a3 = b3 := h 3
  have h4 : a4 = b4 := h 4
  have h5 : a5 = b5 := h 5
  have h6 : a6 = b6 := h 6
  have h7 : a7 = b7 := h 7
  subst h0 h1 h2 h3 h4 h5 h6 h7
  rfl

/-- The state's own read after write. -/
@[simp] theorem State.reg_setReg_same (s : State) (i : RegIndex) (v : Byte) :
    (s.setReg i v).reg i = v := RegFile.get_set_same s.regs i v

/-- A register write leaves every other register alone. -/
theorem State.reg_setReg_ne (s : State) {i k : RegIndex} (v : Byte) (h : k ≠ i) :
    (s.setReg i v).reg k = s.reg k := RegFile.get_set_ne s.regs v h

/-- Read after write, both cases at once. -/
theorem State.reg_setReg (s : State) (i k : RegIndex) (v : Byte) :
    (s.setReg i v).reg k = if k = i then v else s.reg k := by
  split
  · next h => subst h; exact s.reg_setReg_same k v
  · next h => exact s.reg_setReg_ne v h

@[simp] theorem State.setReg_mem (s : State) (i : RegIndex) (v : Byte) : (s.setReg i v).mem = s.mem := rfl
@[simp] theorem State.setReg_pc (s : State) (i : RegIndex) (v : Byte) : (s.setReg i v).pc = s.pc := rfl
@[simp] theorem State.setReg_fl (s : State) (i : RegIndex) (v : Byte) : (s.setReg i v).fl = s.fl := rfl
@[simp] theorem State.setReg_run (s : State) (i : RegIndex) (v : Byte) : (s.setReg i v).run = s.run := rfl
@[simp] theorem State.setReg_err (s : State) (i : RegIndex) (v : Byte) : (s.setReg i v).err = s.err := rfl
@[simp] theorem State.setReg_out (s : State) (i : RegIndex) (v : Byte) : (s.setReg i v).out = s.out := rfl

@[simp] theorem State.setPc_mem (s : State) (v : Byte) : (s.setPc v).mem = s.mem := rfl
@[simp] theorem State.setPc_regs (s : State) (v : Byte) : (s.setPc v).regs = s.regs := rfl
@[simp] theorem State.setPc_reg (s : State) (v : Byte) (k : RegIndex) : (s.setPc v).reg k = s.reg k := rfl
@[simp] theorem State.setPc_pc (s : State) (v : Byte) : (s.setPc v).pc = v := rfl
@[simp] theorem State.setPc_fl (s : State) (v : Byte) : (s.setPc v).fl = s.fl := rfl
@[simp] theorem State.setPc_run (s : State) (v : Byte) : (s.setPc v).run = s.run := rfl
@[simp] theorem State.setPc_err (s : State) (v : Byte) : (s.setPc v).err = s.err := rfl
@[simp] theorem State.setPc_out (s : State) (v : Byte) : (s.setPc v).out = s.out := rfl

@[simp] theorem State.setFlags_mem (s : State) (f : Flags) : (s.setFlags f).mem = s.mem := rfl
@[simp] theorem State.setFlags_regs (s : State) (f : Flags) : (s.setFlags f).regs = s.regs := rfl
@[simp] theorem State.setFlags_reg (s : State) (f : Flags) (k : RegIndex) :
    (s.setFlags f).reg k = s.reg k := rfl
@[simp] theorem State.setFlags_pc (s : State) (f : Flags) : (s.setFlags f).pc = s.pc := rfl
@[simp] theorem State.setFlags_fl (s : State) (f : Flags) : (s.setFlags f).fl = f := rfl
@[simp] theorem State.setFlags_run (s : State) (f : Flags) : (s.setFlags f).run = s.run := rfl
@[simp] theorem State.setFlags_err (s : State) (f : Flags) : (s.setFlags f).err = s.err := rfl
@[simp] theorem State.setFlags_out (s : State) (f : Flags) : (s.setFlags f).out = s.out := rfl

@[simp] theorem State.emit_mem (s : State) (v : Byte) : (s.emit v).mem = s.mem := rfl
@[simp] theorem State.emit_regs (s : State) (v : Byte) : (s.emit v).regs = s.regs := rfl
@[simp] theorem State.emit_reg (s : State) (v : Byte) (k : RegIndex) : (s.emit v).reg k = s.reg k := rfl
@[simp] theorem State.emit_pc (s : State) (v : Byte) : (s.emit v).pc = s.pc := rfl
@[simp] theorem State.emit_fl (s : State) (v : Byte) : (s.emit v).fl = s.fl := rfl
@[simp] theorem State.emit_run (s : State) (v : Byte) : (s.emit v).run = s.run := rfl
@[simp] theorem State.emit_err (s : State) (v : Byte) : (s.emit v).err = s.err := rfl
@[simp] theorem State.emit_out (s : State) (v : Byte) : (s.emit v).out = s.out ++ [v] := rfl

@[simp] theorem State.halt_mem (s : State) : s.halt.mem = s.mem := rfl
@[simp] theorem State.halt_regs (s : State) : s.halt.regs = s.regs := rfl
@[simp] theorem State.halt_reg (s : State) (k : RegIndex) : s.halt.reg k = s.reg k := rfl
@[simp] theorem State.halt_pc (s : State) : s.halt.pc = s.pc := rfl
@[simp] theorem State.halt_fl (s : State) : s.halt.fl = s.fl := rfl
@[simp] theorem State.halt_run (s : State) : s.halt.run = .halted := rfl
@[simp] theorem State.halt_err (s : State) : s.halt.err = s.err := rfl
@[simp] theorem State.halt_out (s : State) : s.halt.out = s.out := rfl

@[simp] theorem State.raise_mem (s : State) (e : FatalError) : (s.raise e).mem = s.mem := rfl
@[simp] theorem State.raise_regs (s : State) (e : FatalError) : (s.raise e).regs = s.regs := rfl
@[simp] theorem State.raise_reg (s : State) (e : FatalError) (k : RegIndex) :
    (s.raise e).reg k = s.reg k := rfl
@[simp] theorem State.raise_pc (s : State) (e : FatalError) : (s.raise e).pc = s.pc := rfl
@[simp] theorem State.raise_fl (s : State) (e : FatalError) : (s.raise e).fl = s.fl := rfl
@[simp] theorem State.raise_run (s : State) (e : FatalError) : (s.raise e).run = .halted := rfl
@[simp] theorem State.raise_err (s : State) (e : FatalError) : (s.raise e).err = some e := rfl
@[simp] theorem State.raise_out (s : State) (e : FatalError) : (s.raise e).out = s.out := rfl

@[simp] theorem State.decSp_mem (s : State) : s.decSp.mem = s.mem := rfl
@[simp] theorem State.decSp_pc (s : State) : s.decSp.pc = s.pc := rfl
@[simp] theorem State.decSp_fl (s : State) : s.decSp.fl = s.fl := rfl
@[simp] theorem State.decSp_run (s : State) : s.decSp.run = s.run := rfl
@[simp] theorem State.decSp_err (s : State) : s.decSp.err = s.err := rfl
@[simp] theorem State.decSp_out (s : State) : s.decSp.out = s.out := rfl
@[simp] theorem State.decSp_sp (s : State) : s.decSp.sp = s.sp - 1 := rfl

@[simp] theorem State.incSp_mem (s : State) : s.incSp.mem = s.mem := rfl
@[simp] theorem State.incSp_pc (s : State) : s.incSp.pc = s.pc := rfl
@[simp] theorem State.incSp_fl (s : State) : s.incSp.fl = s.fl := rfl
@[simp] theorem State.incSp_run (s : State) : s.incSp.run = s.run := rfl
@[simp] theorem State.incSp_err (s : State) : s.incSp.err = s.err := rfl
@[simp] theorem State.incSp_out (s : State) : s.incSp.out = s.out := rfl
@[simp] theorem State.incSp_sp (s : State) : s.incSp.sp = s.sp + 1 := rfl

/-- `sp` is register 7 (R13). -/
theorem State.sp_eq (s : State) : s.sp = s.reg 7 := rfl

/-- The decrement moves register 7 and no other. -/
theorem State.decSp_reg (s : State) (k : RegIndex) :
    s.decSp.reg k = if k = 7 then s.sp - 1 else s.reg k := s.reg_setReg spIndex k _

/-- The increment moves register 7 and no other. -/
theorem State.incSp_reg (s : State) (k : RegIndex) :
    s.incSp.reg k = if k = 7 then s.sp + 1 else s.reg k := s.reg_setReg spIndex k _

end Sys2Proof.Machine
end

