-- ==== Sys2Proof/Laws/Memory.lean ====
section
/-! SUPPORT. Memory: read after write, the canonical form, equal memories are equal data, loading. -/

namespace Sys2Proof.Machine

@[simp] theorem Memory.cell_nil (a : Nat) : Memory.cell [] a = .empty := rfl

theorem Memory.cell_cons (k : Nat) (v : Byte) (m : Memory) (a : Nat) :
    Memory.cell ((k, v) :: m) a = if k = a then .byte v else m.cell a := rfl

/-- A read after a write to the same cell gives the byte written. -/
@[simp] theorem Memory.cell_write_same (m : Memory) (a : Nat) (v : Byte) :
    (m.write a v).cell a = .byte v := by
  induction m with
  | nil => simp [Memory.write, Memory.cell_cons]
  | cons p m ih =>
    obtain ⟨k, w⟩ := p
    unfold Memory.write
    split_ifs with h1 h2
    · simp [Memory.cell_cons]
    · simp [Memory.cell_cons]
    · rw [Memory.cell_cons, if_neg (by omega), ih]

/-- A write leaves every other cell alone. -/
theorem Memory.cell_write_ne (m : Memory) {a x : Nat} (v : Byte) (h : x ≠ a) :
    (m.write a v).cell x = m.cell x := by
  induction m with
  | nil => simp [Memory.write, Memory.cell_cons, Ne.symm h]
  | cons p m ih =>
    obtain ⟨k, w⟩ := p
    unfold Memory.write
    split_ifs with h1 h2
    · rw [Memory.cell_cons, if_neg (Ne.symm h)]
    · subst h2
      rw [Memory.cell_cons, Memory.cell_cons, if_neg (Ne.symm h), if_neg (Ne.symm h)]
    · rw [Memory.cell_cons, Memory.cell_cons, ih]

/-- Read after write, both cases at once. -/
theorem Memory.cell_write (m : Memory) (a x : Nat) (v : Byte) :
    (m.write a v).cell x = if x = a then .byte v else m.cell x := by
  split
  · next h => subst h; exact m.cell_write_same x v
  · next h => exact m.cell_write_ne v h

/-- A pair of the written memory is the new one or an old one. -/
theorem Memory.mem_write {m : Memory} {a : Nat} {v : Byte} {p : Host.Cell}
    (h : p ∈ m.write a v) : p = (a, v) ∨ p ∈ m := by
  induction m with
  | nil => simpa [Memory.write] using h
  | cons q m ih =>
    obtain ⟨k, w⟩ := q
    unfold Memory.write at h
    split_ifs at h with h1 h2
    · simpa using h
    · rcases List.mem_cons.1 h with h | h
      · exact .inl h
      · exact .inr (List.mem_cons_of_mem _ h)
    · rcases List.mem_cons.1 h with h | h
      · exact .inr (by simp [h])
      · exact (ih h).imp id (List.mem_cons_of_mem _)

/-- Empty memory is canonical. -/
theorem Memory.wf_nil : Memory.wf [] := by simp [Memory.wf]

/-- A write inside 0..255 keeps the canonical form. -/
theorem Memory.wf_write {m : Memory} (h : m.wf) {a : Nat} (ha : a ≤ 255) (v : Byte) :
    (m.write a v).wf := by
  refine ⟨?_, fun p hp => ?_⟩
  · obtain ⟨hs, -⟩ := h
    induction m with
    | nil => simp [Memory.write]
    | cons q m ih =>
      obtain ⟨k, w⟩ := q
      obtain ⟨hk, hm⟩ := List.pairwise_cons.1 hs
      unfold Memory.write
      split_ifs with h1 h2
      · refine List.pairwise_cons.2 ⟨fun p hp => ?_, hs⟩
        rcases List.mem_cons.1 hp with rfl | hp
        · exact h1
        · exact Nat.lt_trans h1 (hk p hp)
      · subst h2; exact List.pairwise_cons.2 ⟨hk, hm⟩
      · refine List.pairwise_cons.2 ⟨fun p hp => ?_, ih hm⟩
        rcases Memory.mem_write hp with rfl | hp
        · show k < a; omega
        · exact hk p hp
  · rcases Memory.mem_write hp with rfl | hp
    · exact ha
    · exact h.2 p hp

/-- A cell below every listed address reads Empty. -/
theorem Memory.cell_of_lt {m : Memory} {a : Nat} (h : ∀ p ∈ m, a < p.1) : m.cell a = .empty := by
  induction m with
  | nil => rfl
  | cons q m ih =>
    have hq := h q (by simp)
    rw [show m = m from rfl, Memory.cell_cons q.1 q.2, if_neg (by omega)]
    exact ih fun p hp => h p (List.mem_cons_of_mem _ hp)

/-- Equal memories are equal data: two canonical lists that read alike are the same list. -/
theorem Memory.ext_cell {m n : Memory} (hm : m.wf) (hn : n.wf) (h : ∀ a, m.cell a = n.cell a) :
    m = n := by
  induction m generalizing n with
  | nil =>
    cases n with
    | nil => rfl
    | cons q n => have := h q.1; simp [Memory.cell_cons q.1 q.2] at this
  | cons p m ih =>
    cases n with
    | nil => have := h p.1; simp [Memory.cell_cons p.1 p.2] at this
    | cons q n =>
      obtain ⟨k, v⟩ := p
      obtain ⟨l, w⟩ := q
      obtain ⟨hk, hm'⟩ := List.pairwise_cons.1 hm.1
      obtain ⟨hl, hn'⟩ := List.pairwise_cons.1 hn.1
      have hkl : k = l := by
        have h1 := h k
        have h2 := h l
        rw [Memory.cell_cons, Memory.cell_cons, if_pos rfl] at h1
        rw [Memory.cell_cons, Memory.cell_cons, if_pos rfl] at h2
        rcases Nat.lt_trichotomy k l with hlt | heq | hgt
        · rw [if_neg (by omega), Memory.cell_of_lt fun p hp => Nat.lt_trans hlt (hl p hp)] at h1
          cases h1
        · exact heq
        · rw [if_neg (by omega), Memory.cell_of_lt fun p hp => Nat.lt_trans hgt (hk p hp)] at h2
          cases h2
      subst hkl
      have hv : v = w := by
        have h1 := h k
        rw [Memory.cell_cons, Memory.cell_cons, if_pos rfl, if_pos rfl] at h1
        exact CellValue.byte.inj h1
      subst hv
      refine congrArg _ (ih ⟨hm', fun p hp => hm.2 p (List.mem_cons_of_mem _ hp)⟩
        ⟨hn', fun p hp => hn.2 p (List.mem_cons_of_mem _ hp)⟩ fun a => ?_)
      have h1 := h a
      rw [Memory.cell_cons, Memory.cell_cons] at h1
      split_ifs at h1 with hka
      · subst hka
        rw [Memory.cell_of_lt hk, Memory.cell_of_lt hl]
      · exact h1

/-- A load below the address read leaves it alone. -/
theorem Memory.cell_load_lt (m : Memory) (a : Nat) (bs : List Byte) {x : Nat} (h : x < a) :
    (m.load a bs).cell x = m.cell x := by
  induction bs generalizing m a with
  | nil => rfl
  | cons b bs ih => rw [Memory.load, ih _ _ (by omega), m.cell_write_ne b (by omega)]

/-- A load leaves the cells above its last byte alone. -/
theorem Memory.cell_load_ge (m : Memory) (a : Nat) (bs : List Byte) {x : Nat}
    (h : a + bs.length ≤ x) : (m.load a bs).cell x = m.cell x := by
  induction bs generalizing m a with
  | nil => rfl
  | cons b bs ih =>
    rw [List.length_cons] at h
    rw [Memory.load, ih _ _ (by omega), m.cell_write_ne b (by omega)]

/-- The `k`-th byte loaded stands at the `k`-th address. -/
theorem Memory.cell_load (m : Memory) (a : Nat) (bs : List Byte) {k : Nat} (h : k < bs.length) :
    (m.load a bs).cell (a + k) = .byte bs[k] := by
  induction bs generalizing m a k with
  | nil => simp at h
  | cons b bs ih =>
    cases k with
    | zero => rw [Memory.load, Memory.cell_load_lt _ _ _ (by omega)]; simp
    | succ k =>
      rw [Memory.load, show a + (k + 1) = a + 1 + k by omega, ih _ _ (by simpa using h)]
      simp

/-- A load inside 0..255 keeps the canonical form. -/
theorem Memory.wf_load {m : Memory} (hm : m.wf) {a : Nat} {bs : List Byte}
    (h : a + bs.length ≤ 256) : (m.load a bs).wf := by
  induction bs generalizing m a with
  | nil => exact hm
  | cons b bs ih =>
    rw [List.length_cons] at h
    exact ih (Memory.wf_write hm (by omega) b) (by omega)

end Sys2Proof.Machine
end

