-- ==== Sys2Proof/Laws/Ops.lean ====
section
/-! SUPPORT. One spec lemma per shared operation, saying everything it can do. -/

namespace Sys2Proof.Machine

@[simp] theorem orRaise_ok {α : Type} (s : State) (x : α) (k : α → Result) :
    orRaise s (.ok x) k = k x := rfl

@[simp] theorem orRaise_error {α : Type} (s : State) (e : FatalError) (k : α → Result) :
    orRaise s (.error e) k = .next (s.raise e) := rfl

@[simp] theorem onNext_next (t : State) (f : State → State) : onNext (.next t) f = .next (f t) := rfl

/-- A continuation that always answers a next state, answers one after a check too. -/
theorem orRaise_next {α : Type} {s : State} {r : Except FatalError α} {k : α → Result}
    (h : ∀ x, ∃ t, k x = .next t) : ∃ t, orRaise s r k = .next t := by
  cases r with
  | ok x => exact h x
  | error e => exact ⟨_, rfl⟩

/-- A byte up to 7 is a register index, itself. -/
theorem regIndex_ok {op : Byte} {i : RegIndex} (h : op.toNat = i.val) : regIndex op = .ok i := by
  unfold regIndex
  rw [dif_pos (by omega)]
  exact congrArg _ (Fin.ext h)

/-- A byte above 7 is OutOfBounds(Reg, value). -/
theorem regIndex_error {op : Byte} (h : 7 < op.toNat) :
    regIndex op = .error (.outOfBoundsReg op.toNat) := by
  unfold regIndex
  rw [dif_neg (by omega)]

/-- What the index check can answer. -/
theorem regIndex_cases (op : Byte) :
    (∃ i : RegIndex, op.toNat = i.val ∧ regIndex op = .ok i) ∨
      (7 < op.toNat ∧ regIndex op = .error (.outOfBoundsReg op.toNat)) := by
  by_cases h : op.toNat < 8
  · exact .inl ⟨⟨op.toNat, h⟩, rfl, regIndex_ok rfl⟩
  · exact .inr ⟨by omega, regIndex_error (by omega)⟩

/-- `MemRead` above 255. -/
theorem memRead_outOfBounds {a : Nat} {s : State} (h : 255 < a) :
    memRead a s = .error (.outOfBoundsMem a) := by
  rw [memRead, if_pos (by omega)]

/-- `MemRead` of an Empty cell. -/
theorem memRead_empty {a : Nat} {s : State} (ha : a ≤ 255) (h : s.mem.cell a = .empty) :
    memRead a s = .error (.emptyRead a) := by
  rw [memRead, if_neg (by omega), h]

/-- `MemRead` of a byte. -/
theorem memRead_byte {a : Nat} {s : State} {v : Byte} (ha : a ≤ 255) (h : s.mem.cell a = .byte v) :
    memRead a s = .ok v := by
  rw [memRead, if_neg (by omega), h]

/-- What `MemRead` can answer. -/
theorem memRead_cases (a : Nat) (s : State) :
    (255 < a ∧ memRead a s = .error (.outOfBoundsMem a)) ∨
      (a ≤ 255 ∧ s.mem.cell a = .empty ∧ memRead a s = .error (.emptyRead a)) ∨
      ∃ v, a ≤ 255 ∧ s.mem.cell a = .byte v ∧ memRead a s = .ok v := by
  by_cases ha : a ≤ 255
  · cases h : s.mem.cell a with
    | empty => exact .inr (.inl ⟨ha, rfl, memRead_empty ha h⟩)
    | byte v => exact .inr (.inr ⟨v, ha, rfl, memRead_byte ha h⟩)
  · exact .inl ⟨by omega, memRead_outOfBounds (by omega)⟩

/-- The store address of a push is a cell of memory. -/
theorem pushAddr_le (s : State) : pushAddr s ≤ 255 := by
  have := (s.sp - 1).isLt
  unfold pushAddr
  omega

/-- The stack pointer names a cell of memory. -/
theorem sp_le (s : State) : s.sp.toNat ≤ 255 := by
  have := s.sp.isLt
  omega

/-- The push mechanic never raises, and this is everything it does (R90). -/
theorem push_eq (v : State → Nat) (s : State) :
    push v s = .ok { s.decSp with
      mem := s.mem.write (pushAddr s) (BitVec.ofNat 8 (v s.decSp)) } := by
  have := pushAddr_le s
  rw [push, memWrite, if_neg (by omega)]
  rfl

/-- The read half of a pop: Empty raises, a byte is delivered (R91). -/
theorem readTop_empty {s : State} (h : s.mem.cell s.sp.toNat = .empty) :
    readTop s = .error (.emptyRead s.sp.toNat) := memRead_empty (sp_le s) h

theorem readTop_byte {s : State} {v : Byte} (h : s.mem.cell s.sp.toNat = .byte v) :
    readTop s = .ok v := memRead_byte (sp_le s) h

/-- What the read half of a pop can answer. -/
theorem readTop_cases (s : State) :
    (s.mem.cell s.sp.toNat = .empty ∧ readTop s = .error (.emptyRead s.sp.toNat)) ∨
      ∃ v, s.mem.cell s.sp.toNat = .byte v ∧ readTop s = .ok v := by
  cases h : s.mem.cell s.sp.toNat with
  | empty => exact .inl ⟨rfl, readTop_empty h⟩
  | byte v => exact .inr ⟨v, rfl, readTop_byte h⟩

/-- The sequential advance with room (R73). -/
theorem advance_ok {s : State} {len : Nat} (h : s.pc.toNat + len ≤ 255) :
    s.advance len = s.setPc (BitVec.ofNat 8 (s.pc.toNat + len)) := if_pos h

/-- The sequential advance past 255 (R73). -/
theorem advance_overrun {s : State} {len : Nat} (h : 255 < s.pc.toNat + len) :
    s.advance len = s.raise (.outOfBoundsPc (s.pc.toNat + len)) := if_neg (by omega)

@[simp] theorem advance_mem (s : State) (len : Nat) : (s.advance len).mem = s.mem := by
  unfold State.advance; split <;> rfl
@[simp] theorem advance_regs (s : State) (len : Nat) : (s.advance len).regs = s.regs := by
  unfold State.advance; split <;> rfl
@[simp] theorem advance_reg (s : State) (len : Nat) (k : RegIndex) :
    (s.advance len).reg k = s.reg k := by
  unfold State.advance; split <;> rfl
@[simp] theorem advance_fl (s : State) (len : Nat) : (s.advance len).fl = s.fl := by
  unfold State.advance; split <;> rfl
@[simp] theorem advance_out (s : State) (len : Nat) : (s.advance len).out = s.out := by
  unfold State.advance; split <;> rfl

/-- What the advance does to `pc`, `run` and `err` (R73). -/
theorem advance_cases (s : State) (len : Nat) :
    (s.pc.toNat + len ≤ 255 ∧ (s.advance len).pc.toNat = s.pc.toNat + len ∧
        (s.advance len).run = s.run ∧ (s.advance len).err = s.err) ∨
      (255 < s.pc.toNat + len ∧ (s.advance len).pc = s.pc ∧ (s.advance len).run = .halted ∧
        (s.advance len).err = some (.outOfBoundsPc (s.pc.toNat + len))) := by
  by_cases h : s.pc.toNat + len ≤ 255
  · refine .inl ⟨h, ?_, ?_, ?_⟩ <;> rw [advance_ok h]
    · rw [State.setPc_pc, BitVec.toNat_ofNat]; omega
    · rfl
    · rfl
  · refine .inr ⟨by omega, ?_, ?_, ?_⟩ <;> rw [advance_overrun (by omega)] <;> rfl

/-- The advance with room moves `pc` and leaves `run` and `err` alone (R73). -/
theorem advance_pc {u : State} {len : Nat} (h : u.pc.toNat + len ≤ 255) :
    (u.advance len).pc.toNat = u.pc.toNat + len := by
  rcases advance_cases u len with ⟨-, h', -⟩ | ⟨h', -⟩ <;> omega
theorem advance_run {u : State} {len : Nat} (h : u.pc.toNat + len ≤ 255) :
    (u.advance len).run = u.run := by rw [advance_ok h]; rfl
theorem advance_err {u : State} {len : Nat} (h : u.pc.toNat + len ≤ 255) :
    (u.advance len).err = u.err := by rw [advance_ok h]; rfl

/-- Stepping down or up by one in a byte, as numbers (R84). -/
theorem toNat_sub_one (x : Byte) : (x - 1).toNat = (x.toNat + 255) % 256 := by
  have := x.isLt
  rw [BitVec.toNat_sub, show (1 : Byte).toNat = 1 from rfl]
  omega

theorem toNat_add_one (x : Byte) : (x + 1).toNat = (x.toNat + 1) % 256 := BitVec.toNat_add x 1

/-- The store address of a push as a number. -/
theorem pushAddr_eq (s : State) : pushAddr s = ((s.reg 7).toNat + 255) % 256 := toNat_sub_one _

/-- The flags of a comparison: exactly one is set (R100). -/
theorem compareFlags_exactlyOne (x y : Byte) : (compareFlags x y).ExactlyOne := by
  simp only [Flags.ExactlyOne, Flags.AtMostOne, compareFlags, decide_eq_true_eq]
  omega

end Sys2Proof.Machine
end

