-- ==== Sys2Proof/Laws/Exec.lean ====
section
/-! SUPPORT. What each meaning does: with its registers named (one equation per instruction), with a
register index out of range, and which states it can answer at all. Provers cite these instead of
unfolding a meaning. -/

namespace Sys2Proof.Machine

/-! With the operands in range. -/

theorem withReg_ok {op : Byte} {i : RegIndex} (s : State) (k : RegIndex → Result)
    (h : op.toNat = i.val) : withReg op s k = k i := by
  rw [withReg, regIndex_ok h, orRaise_ok]

theorem withRegs_ok {a b : Byte} {i j : RegIndex} (s : State) (k : RegIndex → RegIndex → Result)
    (ha : a.toNat = i.val) (hb : b.toNat = j.val) : withRegs a b s k = k i j := by
  rw [withRegs, withReg_ok s _ ha, withReg_ok s _ hb]

theorem execLdi_eq {r v : Byte} {i : RegIndex} (s : State) (hr : r.toNat = i.val) :
    execLdi r v s = .next ((s.setReg i v).advance 3) := by
  rw [execLdi, withReg, regIndex_ok hr]; rfl

theorem execPrn_eq {r : Byte} {i : RegIndex} (s : State) (hr : r.toNat = i.val) :
    execPrn r s = .next ((s.emit (s.reg i)).advance 2) := by
  rw [execPrn, withReg, regIndex_ok hr]; rfl

theorem execAdd_eq {a b : Byte} {i j : RegIndex} (s : State) (ha : a.toNat = i.val)
    (hb : b.toNat = j.val) :
    execAdd a b s = .next ((s.setReg i (s.reg i + s.reg j)).advance 3) := by
  rw [execAdd, withRegs_ok s _ ha hb]; rfl

theorem execMul_eq {a b : Byte} {i j : RegIndex} (s : State) (ha : a.toNat = i.val)
    (hb : b.toNat = j.val) :
    execMul a b s = .next ((s.setReg i (s.reg i * s.reg j)).advance 3) := by
  rw [execMul, withRegs_ok s _ ha hb]; rfl

theorem execCmp_eq {a b : Byte} {i j : RegIndex} (s : State) (ha : a.toNat = i.val)
    (hb : b.toNat = j.val) :
    execCmp a b s = .next ((s.setFlags (compareFlags (s.reg i) (s.reg j))).advance 3) := by
  rw [execCmp, withRegs_ok s _ ha hb]

/-- The state a push leaves (R90): register 7 decremented, the byte stored at the new stack pointer. -/
def pushed (s : State) (v : Byte) : State := { s.decSp with mem := s.mem.write (pushAddr s) v }

@[simp] theorem pushed_mem (s : State) (v : Byte) :
    (pushed s v).mem = s.mem.write (pushAddr s) v := rfl
@[simp] theorem pushed_reg (s : State) (v : Byte) (k : RegIndex) :
    (pushed s v).reg k = s.decSp.reg k := rfl
@[simp] theorem pushed_sp (s : State) (v : Byte) : (pushed s v).sp = s.sp - 1 := rfl
@[simp] theorem pushed_pc (s : State) (v : Byte) : (pushed s v).pc = s.pc := rfl
@[simp] theorem pushed_fl (s : State) (v : Byte) : (pushed s v).fl = s.fl := rfl
@[simp] theorem pushed_run (s : State) (v : Byte) : (pushed s v).run = s.run := rfl
@[simp] theorem pushed_err (s : State) (v : Byte) : (pushed s v).err = s.err := rfl
@[simp] theorem pushed_out (s : State) (v : Byte) : (pushed s v).out = s.out := rfl

theorem execPush_eq {r : Byte} {i : RegIndex} (s : State) (hr : r.toNat = i.val) :
    execPush r s = .next ((pushed s (s.decSp.reg i)).advance 2) := by
  rw [execPush, withReg, regIndex_ok hr, orRaise_ok, push_eq, orRaise_ok, BitVec.ofNat_toNat,
    BitVec.setWidth_eq]
  rfl

theorem execCall_eq {r : Byte} {i : RegIndex} (s : State) (hr : r.toNat = i.val) :
    execCall r s =
      .next ((pushed s (BitVec.ofNat 8 (s.pc.toNat + 2))).setPc (s.decSp.reg i)) := by
  rw [execCall, withReg, regIndex_ok hr, orRaise_ok, push_eq, orRaise_ok]
  rfl

theorem execPop_eq {r v : Byte} {i : RegIndex} {s : State} (hr : r.toNat = i.val)
    (hv : s.mem.cell s.sp.toNat = .byte v) :
    execPop r s = .next ((s.setReg i v).incSp.advance 2) := by
  rw [execPop, withReg, regIndex_ok hr, readTop_byte hv]; rfl

theorem execPop_empty {r : Byte} {i : RegIndex} {s : State} (hr : r.toNat = i.val)
    (hv : s.mem.cell s.sp.toNat = .empty) :
    execPop r s = .next (s.raise (.emptyRead s.sp.toNat)) := by
  rw [execPop, withReg, regIndex_ok hr, readTop_empty hv]; rfl

theorem execRet_eq {v : Byte} {s : State} (hv : s.mem.cell s.sp.toNat = .byte v) :
    execRet s = .next (s.incSp.setPc v) := by
  rw [execRet, readTop_byte hv]; rfl

theorem execRet_empty {s : State} (hv : s.mem.cell s.sp.toNat = .empty) :
    execRet s = .next (s.raise (.emptyRead s.sp.toNat)) := by
  rw [execRet, readTop_empty hv]; rfl

theorem execJmp_eq {r : Byte} {i : RegIndex} (s : State) (hr : r.toNat = i.val) :
    execJmp r s = .next (s.setPc (s.reg i)) := by
  rw [execJmp, withReg, regIndex_ok hr]; rfl

theorem execJeq_eq {r : Byte} {i : RegIndex} (s : State) (hr : r.toNat = i.val) :
    execJeq r s = .next (if s.fl.equal then s.setPc (s.reg i) else s.advance 2) := by
  rw [execJeq, withReg, regIndex_ok hr]; rfl

theorem execJne_eq {r : Byte} {i : RegIndex} (s : State) (hr : r.toNat = i.val) :
    execJne r s = .next (if s.fl.equal then s.advance 2 else s.setPc (s.reg i)) := by
  rw [execJne, withReg, regIndex_ok hr]; rfl

/-! The two shared operand checks. -/

/-- What format R can answer: the check's fatal error, or the continuation (R71). -/
theorem withReg_cases (op : Byte) (s : State) (k : RegIndex → Result) :
    (∃ i : RegIndex, op.toNat = i.val ∧ withReg op s k = k i) ∨
      (7 < op.toNat ∧ withReg op s k = .next (s.raise (.outOfBoundsReg op.toNat))) := by
  rcases regIndex_cases op with ⟨i, hi, he⟩ | ⟨h, he⟩
  · exact .inl ⟨i, hi, by rw [withReg, he, orRaise_ok]⟩
  · exact .inr ⟨h, by rw [withReg, he, orRaise_error]⟩

theorem withReg_bad {op : Byte} (s : State) (k : RegIndex → Result) (h : 7 < op.toNat) :
    withReg op s k = .next (s.raise (.outOfBoundsReg op.toNat)) := by
  rw [withReg, regIndex_error h]; rfl

/-- What format RR can answer: the first check's fatal error, the second's, or the continuation. -/
theorem withRegs_cases (a b : Byte) (s : State) (k : RegIndex → RegIndex → Result) :
    (∃ i j : RegIndex, a.toNat = i.val ∧ b.toNat = j.val ∧ withRegs a b s k = k i j) ∨
      (7 < a.toNat ∧ withRegs a b s k = .next (s.raise (.outOfBoundsReg a.toNat))) ∨
      (a.toNat ≤ 7 ∧ 7 < b.toNat ∧ withRegs a b s k = .next (s.raise (.outOfBoundsReg b.toNat))) := by
  rcases withReg_cases a s (fun i => withReg b s fun j => k i j) with ⟨i, hi, he⟩ | ⟨h, he⟩
  · rcases withReg_cases b s (fun j => k i j) with ⟨j, hj, he'⟩ | ⟨h', he'⟩
    · exact .inl ⟨i, j, hi, hj, by rw [withRegs, he, he']⟩
    · exact .inr (.inr ⟨by omega, h', by rw [withRegs, he, he']⟩)
  · exact .inr (.inl ⟨h, he⟩)

/-! What `exec` can answer at all: said once, so that no later proof unfolds a meaning. -/

/-- What an instruction that advances has written when stage 5 begins (R72). -/
inductive Effect (s : State) : Instr → State → Prop where
  | ldi (r v : Byte) (i : RegIndex) (hr : r.toNat = i.val) : Effect s (.ldi r v) (s.setReg i v)
  | prn (r : Byte) (i : RegIndex) (hr : r.toNat = i.val) : Effect s (.prn r) (s.emit (s.reg i))
  | add (a b : Byte) (i j : RegIndex) (ha : a.toNat = i.val) (hb : b.toNat = j.val) :
      Effect s (.add a b) (s.setReg i (s.reg i + s.reg j))
  | mul (a b : Byte) (i j : RegIndex) (ha : a.toNat = i.val) (hb : b.toNat = j.val) :
      Effect s (.mul a b) (s.setReg i (s.reg i * s.reg j))
  | cmp (a b : Byte) (i j : RegIndex) (ha : a.toNat = i.val) (hb : b.toNat = j.val) :
      Effect s (.cmp a b) (s.setFlags (compareFlags (s.reg i) (s.reg j)))
  | push (r : Byte) (i : RegIndex) (hr : r.toNat = i.val) :
      Effect s (.push r) (pushed s (s.decSp.reg i))
  | pop (r v : Byte) (i : RegIndex) (hr : r.toNat = i.val) (hv : s.mem.cell s.sp.toNat = .byte v) :
      Effect s (.pop r) (s.setReg i v).incSp
  | jeq (r : Byte) (i : RegIndex) (hr : r.toNat = i.val) (he : s.fl.equal = false) :
      Effect s (.jeq r) s
  | jne (r : Byte) (i : RegIndex) (hr : r.toNat = i.val) (he : s.fl.equal = true) :
      Effect s (.jne r) s

/-- What a control transfer that is taken leaves (R104). -/
inductive Transfer (s : State) : Instr → State → Prop where
  | call (r : Byte) (i : RegIndex) (hr : r.toNat = i.val) :
      Transfer s (.call r) ((pushed s (BitVec.ofNat 8 (s.pc.toNat + 2))).setPc (s.decSp.reg i))
  | ret (v : Byte) (hv : s.mem.cell s.sp.toNat = .byte v) : Transfer s .ret (s.incSp.setPc v)
  | jmp (r : Byte) (i : RegIndex) (hr : r.toNat = i.val) : Transfer s (.jmp r) (s.setPc (s.reg i))
  | jeq (r : Byte) (i : RegIndex) (hr : r.toNat = i.val) (he : s.fl.equal = true) :
      Transfer s (.jeq r) (s.setPc (s.reg i))
  | jne (r : Byte) (i : RegIndex) (hr : r.toNat = i.val) (he : s.fl.equal = false) :
      Transfer s (.jne r) (s.setPc (s.reg i))

/-- A fatal error an instruction raises before its first write (R71, R91). -/
inductive Raises (s : State) : Instr → FatalError → Prop where
  | index (i : Instr) (op : Byte) (hm : op ∈ i.regOperands) (hop : 7 < op.toNat) :
      Raises s i (.outOfBoundsReg op.toNat)
  | pop (r : Byte) (i : RegIndex) (hr : r.toNat = i.val) (hv : s.mem.cell s.sp.toNat = .empty) :
      Raises s (.pop r) (.emptyRead s.sp.toNat)
  | ret (hv : s.mem.cell s.sp.toNat = .empty) : Raises s .ret (.emptyRead s.sp.toNat)

/-- The four ways an instruction ends. -/
inductive Executes (s : State) (i : Instr) : State → Prop where
  | raised (e : FatalError) (h : Raises s i e) : Executes s i (s.raise e)
  | halted (h : i = .hlt) : Executes s i s.halt
  | advanced (u : State) (h : Effect s i u) : Executes s i (u.advance i.length)
  | transferred (t : State) (h : Transfer s i t) : Executes s i t

/-- A format R meaning ends in one of them if its continuation does. -/
theorem withReg_executes {i : Instr} {op : Byte} {s t : State} {k : RegIndex → Result}
    (hm : op ∈ i.regOperands) (h : withReg op s k = .next t)
    (hk : ∀ r : RegIndex, op.toNat = r.val → k r = .next t → Executes s i t) : Executes s i t := by
  rcases withReg_cases op s k with ⟨r, hr, he⟩ | ⟨hb, he⟩
  · exact hk r hr (he ▸ h)
  · rw [he] at h; cases h; exact .raised _ (.index i op hm hb)

/-- A format RR meaning ends in one of them if its continuation does. -/
theorem withRegs_executes {i : Instr} {a b : Byte} {s t : State} {k : RegIndex → RegIndex → Result}
    (ha : a ∈ i.regOperands) (hb : b ∈ i.regOperands) (h : withRegs a b s k = .next t)
    (hk : ∀ x y : RegIndex, a.toNat = x.val → b.toNat = y.val → k x y = .next t → Executes s i t) :
    Executes s i t :=
  withReg_executes ha h fun x hx h' => withReg_executes hb h' fun y hy h'' => hk x y hx hy h''

/-- Everything `exec` can do. -/
theorem exec_executes {i : Instr} {s t : State} (h : exec i s = .next t) : Executes s i t := by
  cases i with
  | ldi r v =>
    exact withReg_executes (by simp [Instr.regOperands]) h fun x hx h => by
      cases h; exact .advanced _ (.ldi r v x hx)
  | prn r =>
    exact withReg_executes (by simp [Instr.regOperands]) h fun x hx h => by
      cases h; exact .advanced _ (.prn r x hx)
  | hlt => cases h; exact .halted rfl
  | mul a b =>
    exact withRegs_executes (by simp [Instr.regOperands]) (by simp [Instr.regOperands]) h
      fun x y hx hy h => by cases h; exact .advanced _ (.mul a b x y hx hy)
  | add a b =>
    exact withRegs_executes (by simp [Instr.regOperands]) (by simp [Instr.regOperands]) h
      fun x y hx hy h => by cases h; exact .advanced _ (.add a b x y hx hy)
  | cmp a b =>
    exact withRegs_executes (by simp [Instr.regOperands]) (by simp [Instr.regOperands]) h
      fun x y hx hy h => by cases h; exact .advanced _ (.cmp a b x y hx hy)
  | push r =>
    refine withReg_executes (by simp [Instr.regOperands]) h fun x hx _ => ?_
    have h : execPush r s = .next t := h
    rw [execPush_eq s hx] at h
    cases h
    exact .advanced _ (.push r x hx)
  | pop r =>
    refine withReg_executes (by simp [Instr.regOperands]) h fun x hx _ => ?_
    have h : execPop r s = .next t := h
    rcases readTop_cases s with ⟨hv, -⟩ | ⟨v, hv, -⟩
    · rw [execPop_empty hx hv] at h; cases h; exact .raised _ (.pop r x hx hv)
    · rw [execPop_eq hx hv] at h; cases h; exact .advanced _ (.pop r v x hx hv)
  | call r =>
    refine withReg_executes (by simp [Instr.regOperands]) h fun x hx _ => ?_
    have h : execCall r s = .next t := h
    rw [execCall_eq s hx] at h
    cases h
    exact .transferred _ (.call r x hx)
  | ret =>
    have h : execRet s = .next t := h
    rcases readTop_cases s with ⟨hv, -⟩ | ⟨v, hv, -⟩
    · rw [execRet_empty hv] at h; cases h; exact .raised _ (.ret hv)
    · rw [execRet_eq hv] at h; cases h; exact .transferred _ (.ret v hv)
  | jmp r =>
    exact withReg_executes (by simp [Instr.regOperands]) h fun x hx h => by
      cases h; exact .transferred _ (.jmp r x hx)
  | jeq r =>
    refine withReg_executes (by simp [Instr.regOperands]) h fun x hx h => ?_
    cases h
    cases he : s.fl.equal
    · exact .advanced _ (.jeq r x hx he)
    · exact .transferred _ (.jeq r x hx he)
  | jne r =>
    refine withReg_executes (by simp [Instr.regOperands]) h fun x hx h => ?_
    cases h
    cases he : s.fl.equal
    · exact .transferred _ (.jne r x hx he)
    · exact .advanced _ (.jne r x hx he)

/-- Stage 4 of an instruction that advances leaves `pc`, `run` and `err` alone. -/
theorem Effect.pc_eq {s u : State} {i : Instr} (h : Effect s i u) : u.pc = s.pc := by
  cases h <;> rfl
theorem Effect.run_eq {s u : State} {i : Instr} (h : Effect s i u) : u.run = s.run := by
  cases h <;> rfl
theorem Effect.err_eq {s u : State} {i : Instr} (h : Effect s i u) : u.err = s.err := by
  cases h <;> rfl

/-- A taken transfer leaves `run` and `err` alone. -/
theorem Transfer.run_eq {s t : State} {i : Instr} (h : Transfer s i t) : t.run = s.run := by
  cases h <;> rfl
theorem Transfer.err_eq {s t : State} {i : Instr} (h : Transfer s i t) : t.err = s.err := by
  cases h <;> rfl

/-- An instruction that advances, run where its effect holds: `Effect` is exact. -/
theorem exec_of_effect {s u : State} {i : Instr} (h : Effect s i u) :
    exec i s = .next (u.advance i.length) := by
  cases h with
  | ldi r v x hr => exact execLdi_eq s hr
  | prn r x hr => exact execPrn_eq s hr
  | add a b x y ha hb => exact execAdd_eq s ha hb
  | mul a b x y ha hb => exact execMul_eq s ha hb
  | cmp a b x y ha hb => exact execCmp_eq s ha hb
  | push r x hr => exact execPush_eq s hr
  | pop r v x hr hv => exact execPop_eq hr hv
  | jeq r x hr he => exact (execJeq_eq s hr).trans (by rw [he]; rfl)
  | jne r x hr he => exact (execJne_eq s hr).trans (by rw [he]; rfl)

/-- A taken transfer, run: `Transfer` is exact. -/
theorem exec_of_transfer {s t : State} {i : Instr} (h : Transfer s i t) : exec i s = .next t := by
  cases h with
  | call r x hr => exact execCall_eq s hr
  | ret v hv => exact execRet_eq hv
  | jmp r x hr => exact execJmp_eq s hr
  | jeq r x hr he => exact (execJeq_eq s hr).trans (by rw [he]; rfl)
  | jne r x hr he => exact (execJne_eq s hr).trans (by rw [he]; rfl)

/-- No instruction that advances reads `pc`: its effect at another `pc` is the same effect. -/
theorem Effect.setPc {s u : State} {i : Instr} (p : Byte) (h : Effect s i u) :
    Effect (s.setPc p) i (u.setPc p) := by
  cases h with
  | ldi r v x hr => exact .ldi r v x hr
  | prn r x hr => exact .prn r x hr
  | add a b x y ha hb => exact .add a b x y ha hb
  | mul a b x y ha hb => exact .mul a b x y ha hb
  | cmp a b x y ha hb => exact .cmp a b x y ha hb
  | push r x hr => exact .push r x hr
  | pop r v x hr hv => exact .pop r v x hr hv
  | jeq r x hr he => exact .jeq r x hr he
  | jne r x hr he => exact .jne r x hr he

/-- An instruction never raises the advance's error in stage 4. -/
theorem Raises.ne_pc {s : State} {i : Instr} {e : FatalError} (h : Raises s i e) (n : Nat) :
    e ≠ .outOfBoundsPc n := by
  cases h <;> nofun

end Sys2Proof.Machine
end

