-- ==== Sys2Proof/Laws/PerInstr.lean ====
section
/-! SUPPORT. Statements about an instruction as syntax, one lemma per constructor. -/

namespace Sys2Proof.Laws.RoundTrip

/-- Decoding the encoding of an instruction, whatever follows it, gives the instruction back, with
every operand at every value. -/
def Statement (i : Instr) : Prop := ∀ rest, decode (encode i ++ rest) = .ok (i, rest)

theorem ldi (r v : Byte) : Statement (.ldi r v) := fun _ => decode_of_takeOperands lookupOpcode_ldi rfl
theorem prn (r : Byte) : Statement (.prn r) := fun _ => decode_of_takeOperands lookupOpcode_prn rfl
theorem hlt : Statement .hlt := fun _ => decode_of_takeOperands lookupOpcode_hlt rfl
theorem mul (a b : Byte) : Statement (.mul a b) := fun _ => decode_of_takeOperands lookupOpcode_mul rfl
theorem push (r : Byte) : Statement (.push r) := fun _ => decode_of_takeOperands lookupOpcode_push rfl
theorem pop (r : Byte) : Statement (.pop r) := fun _ => decode_of_takeOperands lookupOpcode_pop rfl
theorem call (r : Byte) : Statement (.call r) := fun _ => decode_of_takeOperands lookupOpcode_call rfl
theorem ret : Statement .ret := fun _ => decode_of_takeOperands lookupOpcode_ret rfl
theorem add (a b : Byte) : Statement (.add a b) := fun _ => decode_of_takeOperands lookupOpcode_add rfl
theorem cmp (a b : Byte) : Statement (.cmp a b) := fun _ => decode_of_takeOperands lookupOpcode_cmp rfl
theorem jmp (r : Byte) : Statement (.jmp r) := fun _ => decode_of_takeOperands lookupOpcode_jmp rfl
theorem jeq (r : Byte) : Statement (.jeq r) := fun _ => decode_of_takeOperands lookupOpcode_jeq rfl
theorem jne (r : Byte) : Statement (.jne r) := fun _ => decode_of_takeOperands lookupOpcode_jne rfl

end Sys2Proof.Laws.RoundTrip
end

