-- ==== Sys2Proof/Laws/Step.lean ====
section
/-! SUPPORT. The fetch and the step: what each stage answers, by the cells it reads. -/

namespace Sys2Proof.Machine

theorem fetch_empty {s : State} (h : s.mem.cell s.pc.toNat = .empty) :
    fetch s = .error (.unrecognizedOpcode s.pc.toNat .empty) := by
  rw [fetch, h]

theorem fetch_unrecognized {s : State} {opc : Byte} (h : s.mem.cell s.pc.toNat = .byte opc)
    (hl : lookupOpcode opc = none) :
    fetch s = .error (.unrecognizedOpcode s.pc.toNat (.byte opc)) := by
  simp only [fetch, h, hl]

theorem fetch_row {s : State} {opc : Byte} {l : Layout} (h : s.mem.cell s.pc.toNat = .byte opc)
    (hl : lookupOpcode opc = some l) : fetch s = fetchOperands s l := by
  simp only [fetch, h, hl]

/-- Operand fetch of a one-operand format is the one read. -/
theorem fetchOperands_R (s : State) (mk : Byte → Instr) :
    fetchOperands s (.R mk) = (memRead (s.pc.toNat + 1) s).map mk := by
  unfold fetchOperands
  cases memRead (s.pc.toNat + 1) s <;> rfl

/-- Operand fetch of a two-operand format: the first read's error before the second's. -/
theorem fetchOperands_two {s : State} {l : Layout} {mk : Byte → Byte → Instr}
    (hl : l = .RR mk ∨ l = .RI mk) :
    (∃ e, memRead (s.pc.toNat + 1) s = .error e ∧ fetchOperands s l = .error e) ∨
      (∃ op0 e, memRead (s.pc.toNat + 1) s = .ok op0 ∧ memRead (s.pc.toNat + 2) s = .error e ∧
        fetchOperands s l = .error e) ∨
      ∃ op0 op1, memRead (s.pc.toNat + 1) s = .ok op0 ∧ memRead (s.pc.toNat + 2) s = .ok op1 ∧
        fetchOperands s l = .ok (mk op0 op1) := by
  rcases hl with rfl | rfl <;>
  · cases h0 : memRead (s.pc.toNat + 1) s with
    | error e => exact .inl ⟨e, rfl, by simp only [fetchOperands, h0]; rfl⟩
    | ok op0 =>
      cases h1 : memRead (s.pc.toNat + 2) s with
      | error e => exact .inr (.inl ⟨op0, e, rfl, rfl, by simp only [fetchOperands, h0, h1]; rfl⟩)
      | ok op1 => exact .inr (.inr ⟨op0, op1, rfl, rfl, by simp only [fetchOperands, h0, h1]; rfl⟩)

/-- A running step whose fetch answers an instruction runs it. -/
theorem step_of_fetch {s : State} {i : Instr} (hr : s.run = .running) (h : fetch s = .ok i) :
    step s = exec i s := by
  simp only [step, hr, h, orRaise_ok]

/-- A running step whose fetch fails takes the fatal error in the state before the step. -/
theorem step_of_fetch_error {s : State} {e : FatalError} (hr : s.run = .running)
    (h : fetch s = .error e) : step s = .next (s.raise e) := by
  simp only [step, hr, h, orRaise_error]

/-- A running step's three ways: a fetch error, or the instruction fetched. -/
theorem step_running_cases {s : State} (hr : s.run = .running) :
    (∃ e, fetch s = .error e ∧ step s = .next (s.raise e)) ∨
      ∃ i, fetch s = .ok i ∧ step s = exec i s := by
  cases h : fetch s with
  | error e => exact .inl ⟨e, rfl, step_of_fetch_error hr h⟩
  | ok i => exact .inr ⟨i, rfl, step_of_fetch hr h⟩

/-- Everything a step can do: nothing if Halted, else a fetch error or the instruction fetched. -/
theorem step_cases {s t : State} (h : step s = .next t) :
    (s.run = .halted ∧ t = s) ∨
      (s.run = .running ∧ ∃ e, fetch s = .error e ∧ t = s.raise e) ∨
      (s.run = .running ∧ ∃ i, fetch s = .ok i ∧ exec i s = .next t) := by
  cases hr : s.run with
  | halted =>
    simp only [step, hr] at h
    cases h
    exact .inl ⟨rfl, rfl⟩
  | running =>
    rcases step_running_cases hr with ⟨e, hf, he⟩ | ⟨i, hf, he⟩ <;> rw [he] at h
    · cases h; exact .inr (.inl ⟨rfl, e, hf, rfl⟩)
    · exact .inr (.inr ⟨rfl, i, hf, h⟩)

/-- A memory read never raises the sequential advance's error. -/
theorem memRead_error_ne_pc {a n : Nat} {s : State} {e : FatalError} (h : memRead a s = .error e) :
    e ≠ .outOfBoundsPc n := by
  rcases memRead_cases a s with ⟨-, he⟩ | ⟨-, -, he⟩ | ⟨v, -, -, he⟩ <;> rw [he] at h <;> cases h <;>
    nofun

theorem fetch_error_ne_pc {s : State} {e : FatalError} {n : Nat} (h : fetch s = .error e) :
    e ≠ .outOfBoundsPc n := by
  cases hc : s.mem.cell s.pc.toNat with
  | empty => rw [fetch_empty hc] at h; cases h; nofun
  | byte opc =>
    cases hl : lookupOpcode opc with
    | none => rw [fetch_unrecognized hc hl] at h; cases h; nofun
    | some l =>
      rw [fetch_row hc hl] at h
      cases l with
      | Z i => cases h
      | R mk =>
        rw [fetchOperands_R] at h
        cases hm : memRead (s.pc.toNat + 1) s with
        | error e' => rw [hm] at h; cases h; exact memRead_error_ne_pc hm
        | ok v => rw [hm] at h; cases h
      | RR mk =>
        rcases fetchOperands_two (s := s) (mk := mk) (.inl rfl) with
          ⟨e', hm, he⟩ | ⟨_, e', -, hm, he⟩ | ⟨_, _, -, -, he⟩ <;> rw [he] at h <;> cases h <;>
          exact memRead_error_ne_pc hm
      | RI mk =>
        rcases fetchOperands_two (s := s) (mk := mk) (.inr rfl) with
          ⟨e', hm, he⟩ | ⟨_, e', -, hm, he⟩ | ⟨_, _, -, -, he⟩ <;> rw [he] at h <;> cases h <;>
          exact memRead_error_ne_pc hm

end Sys2Proof.Machine
end

