-- ==== Sys2Proof/Tests/Slice0.lean ====
section
/-! SUPPORT. Small tests, their expected results from the spec's encodings (30_encoding.md R56) and its
test vectors (95_test_vectors.md, V1 to V63), and for every statement with hypotheses a witness that
meets them together. -/

namespace Sys2Proof.Tests

open Sys2Proof.Machine

/-- The reset state with `bytes` at `pc` and `pc` there. -/
def stateAt (pc : Byte) (bytes : List Byte) : State :=
  { State.reset with pc := pc, mem := Memory.load [] pc.toNat bytes }

/-- The same with x[0] and x[1] set. -/
def stateWith (pc : Byte) (bytes : List Byte) (x0 x1 : Byte) : State :=
  ((stateAt pc bytes).setReg 0 x0).setReg 1 x1

/-- The next state of an outcome, if it is one. -/
def nextOf : Result → Option State
  | .next t => some t
  | .fault _ => none
  | .refused _ => none

/-- The state two steps on. -/
def twoSteps (s : State) : Option State := (nextOf (step s)).bind fun t => nextOf (step t)

/-! ## Well-formedness: each check refuses an ill-formed term -/

theorem test_wellFormed_op0 : wellFormed (.push 8) = false := by decide
theorem test_wellFormed_op1 : wellFormed (.add 7 8) = false := by decide
theorem test_wellFormed_immediate : wellFormed (.ldi 7 255) = true := by decide

/-! ## Decoding: words written out bit by bit from R56 -/

theorem test_decode_ldi : decode [0b10000010, 0, 8] = .ok (.ldi 0 8, []) := rfl
theorem test_decode_prn : decode [0b01000111, 7, 9] = .ok (.prn 7, [9]) := rfl
theorem test_decode_hlt : decode [0b00000001] = .ok (.hlt, []) := rfl
theorem test_decode_mul : decode [0b10100010, 2, 1] = .ok (.mul 2 1, []) := rfl
theorem test_decode_push : decode [0b01000101, 7] = .ok (.push 7, []) := rfl
theorem test_decode_pop : decode [0b01000110, 255] = .ok (.pop 255, []) := rfl
theorem test_decode_call : decode [0b01010000, 1] = .ok (.call 1, []) := rfl
theorem test_decode_ret : decode [0b00010001] = .ok (.ret, []) := rfl
theorem test_decode_add : decode [0b10100000, 0, 1] = .ok (.add 0 1, []) := rfl
theorem test_decode_cmp : decode [0b10100111, 0, 1] = .ok (.cmp 0 1, []) := rfl
theorem test_decode_jmp : decode [0b01010100, 2] = .ok (.jmp 2, []) := rfl
theorem test_decode_jeq : decode [0b01010101, 2] = .ok (.jeq 2, []) := rfl
theorem test_decode_jne : decode [0b01010110, 3] = .ok (.jne 3, []) := rfl
theorem test_decode_zero_unrecognized : decode [0x00] = .error (.unrecognized 0) := rfl
theorem test_decode_missing_operand : decode [0x82, 0] = .error (.missingOperand 0x82) := rfl
theorem test_table_word : decodeTableWord 24 0x080082 = some (.ldi 0 8) := by decide
theorem test_table_word_short : decodeTableWord 8 0xFFFF01 = some .hlt := by decide
theorem test_opcodes_distinct : (opcodeTable.map (·.1)).Nodup := by decide

/-- A table word placed at reset is what the next step runs (here LDI r0,8). -/
theorem test_withFetchWord :
    (nextOf (step (State.reset.withFetchWord 24 0x080082))).map (fun t => (t.reg 0, t.pc)) =
      some (8, 3) := by decide

/-! ## One step each: the vectors of 95_test_vectors.md -/

/-- V1, V2. -/
theorem test_hlt_last_address :
    (nextOf (step (stateAt 255 [0x01]))).map (fun t => (t.status, t.pc)) =
      some ((.halted, none), 255) := by decide
/-- V5. -/
theorem test_prn : (nextOf (step (stateWith 3 [0x47, 0] 255 0))).map (fun t => (t.out, t.pc)) =
    some ([255], 5) := by decide
/-- V6. -/
theorem test_prn_overrun :
    (nextOf (step (stateAt 254 [0x47, 0]))).map (fun t => (t.out, t.pc, t.status)) =
      some ([0], 254, .halted, some (.outOfBoundsPc 256)) := by decide
/-- V13. -/
theorem test_ldi_r7 : (nextOf (step (stateAt 0 [0x82, 7, 9]))).map (fun t => (t.sp, t.pc)) =
    some (9, 3) := by decide
/-- V40. -/
theorem test_ldi_operand_before_index :
    (nextOf (step (stateAt 254 [0x82, 9]))).map (fun t => t.status) =
      some (.halted, some (.outOfBoundsMem 256)) := by decide
/-- V17. -/
theorem test_add_wraps :
    (nextOf (step (stateWith 6 [0xA0, 0, 1] 200 100))).map (fun t => (t.reg 0, t.reg 1, t.pc)) =
      some (44, 100, 9) := by decide
/-- V26c. -/
theorem test_mul_first_index :
    (nextOf (step (stateAt 0 [0xA2, 9, 10]))).map (fun t => t.status) =
      some (.halted, some (.outOfBoundsReg 9)) := by decide
/-- V24. -/
theorem test_mul_wraps : (nextOf (step (stateWith 0 [0xA2, 0, 1] 255 255))).map (fun t => t.reg 0) =
    some 1 := by decide
/-- V29. -/
theorem test_push_wraps :
    (nextOf (step ((stateWith 0 [0x45, 0] 171 0).setReg 7 0))).map
      (fun t => (t.sp, t.mem.cell 255)) = some (255, .byte 171) := by decide
/-- V27. -/
theorem test_push_pop_r7 :
    (twoSteps (stateAt 0 [0x45, 7, 0x46, 7])).map (fun t => (t.sp, t.mem.cell 243, t.pc)) =
      some (244, .byte 243, 4) := by decide
/-- V33. -/
theorem test_pop_r7 :
    (nextOf (step ({ stateAt 0 [0x46, 7] with
      mem := Memory.write [(0, 0x46), (1, 7)] 243 100 }.setReg 7 243))).map (fun t => t.sp) =
      some 101 := by decide
/-- V36. -/
theorem test_call_last_place :
    (nextOf (step (stateWith 254 [0x50, 1] 0 20))).map (fun t => (t.sp, t.mem.cell 243, t.pc)) =
      some (243, .byte 0, 20) := by decide
/-- V37. -/
theorem test_call_r7 :
    (twoSteps (stateAt 0 [0x50, 7])).map (fun t => (t.pc, t.err)) =
      some (243, some (.unrecognizedOpcode 243 (.byte 2))) := by decide
/-- V39a. -/
theorem test_push_ret :
    (twoSteps (stateWith 4 [0x45, 0, 0x11] 30 0)).map (fun t => (t.pc, t.sp, t.mem.cell 243)) =
      some (30, 244, .byte 30) := by decide
/-- V39. -/
theorem test_ret_empty :
    (nextOf (step (stateAt 0 [0x11]))).map (fun t => (t.status, t.pc, t.sp)) =
      some ((.halted, some (.emptyRead 244)), 0, 244) := by decide
/-- V50: unsigned. -/
theorem test_cmp_unsigned :
    (nextOf (step (stateWith 0 [0xA7, 0, 1] 0 255))).map (fun t => t.fl) =
      some { equal := false, less := true, greater := false } := by decide
/-- V53. -/
theorem test_jmp : (nextOf (step ((stateAt 9 [0x54, 2]).setReg 2 20))).map (fun t => t.pc) =
    some 20 := by decide
/-- V57. -/
theorem test_jeq_at_reset : (nextOf (step ((stateAt 3 [0x55, 2]).setReg 2 6))).map (fun t => t.pc) =
    some 5 := by decide
/-- V61: a bad index faults even when the branch would not be taken. -/
theorem test_jeq_bad_index : (nextOf (step (stateAt 0 [0x55, 9]))).map (fun t => t.status) =
    some (.halted, some (.outOfBoundsReg 9)) := by decide
/-- V58. -/
theorem test_jne_at_reset : (nextOf (step ((stateAt 3 [0x56, 2]).setReg 2 6))).map (fun t => t.pc) =
    some 6 := by decide
/-- V8. -/
theorem test_empty_opcode : (nextOf (step (stateAt 5 []))).map (fun t => (t.status, t.pc)) =
    some ((.halted, some (.unrecognizedOpcode 5 .empty)), 5) := by decide
/-- V16. -/
theorem test_empty_operand : (nextOf (step (stateAt 0 [0x82, 0]))).map (fun t => t.status) =
    some (.halted, some (.emptyRead 2)) := by decide
/-- R19: plain decimal, one line per value. -/
theorem test_outLines : ({ State.reset with out := [0, 255] } : State).outLines = ["0", "255"] := by
  decide
/-- S8: the text of P1 loads as six bytes from address 0. -/
theorem test_launch : (launch [0x82, 0, 8, 0x47, 0, 1]).map (fun s => (s.mem.cell 5, s.mem.cell 6)) =
    some (.byte 1, .empty) := by decide

/-! ## Witnesses: the hypotheses of each statement met together -/

theorem witness_StepRunsDecodedInstruction :
    (stateAt 253 [0x82, 8, 1]).run = .running ∧
      (stateAt 253 [0x82, 8, 1]).mem.Holds 253 [0x82, 8, 1] ∧
      decode [0x82, 8, 1] = .ok (.ldi 8 1, []) :=
  ⟨rfl, ⟨⟨by decide, rfl⟩, ⟨by decide, rfl⟩, ⟨by decide, rfl⟩, trivial⟩, rfl⟩
theorem witness_SteppingChangesNothing :
    (stateAt 0 []).halt.run = .halted ∧ ∃ t, stepN 1 (stateAt 0 [0x01]) = .next t := ⟨rfl, _, rfl⟩
theorem witness_UnrecognizedOpcodeIsFatal_empty :
    (stateAt 255 []).run = .running ∧ (stateAt 255 []).mem.cell 255 = .empty := by decide
theorem witness_UnrecognizedOpcodeIsFatal_byte :
    (stateAt 0 [0]).run = .running ∧ (stateAt 0 [0]).mem.cell 0 = .byte 0 := by decide
theorem witness_OperandFetchErrors_first_out :
    (stateAt 255 [0x45]).mem.cell 255 = .byte 0x45 ∧ (stateAt 255 [0x45]).pc.toNat = 255 := by decide
theorem witness_OperandFetchErrors_first_empty :
    (stateAt 254 [0x82]).mem.cell 254 = .byte 0x82 ∧ (stateAt 254 [0x82]).pc.toNat < 255 ∧
      (stateAt 254 [0x82]).mem.cell 255 = .empty := by decide
theorem witness_OperandFetchErrors_second_out :
    (stateAt 254 [0xA7, 9]).mem.cell 254 = .byte 0xA7 ∧ (stateAt 254 [0xA7, 9]).pc.toNat = 254 ∧
      (stateAt 254 [0xA7, 9]).mem.cell 255 ≠ .empty := by decide
theorem witness_OperandFetchErrors_second_empty :
    (stateAt 253 [0xA0, 9]).mem.cell 253 = .byte 0xA0 ∧ (stateAt 253 [0xA0, 9]).pc.toNat < 254 ∧
      (stateAt 253 [0xA0, 9]).mem.cell 254 ≠ .empty ∧
      (stateAt 253 [0xA0, 9]).mem.cell 255 = .empty := by decide
theorem witness_RegisterIndexChecked_out : 7 < (8 : Byte).toNat ∧ (7 : Byte).toNat ≤ 7 := by decide
theorem witness_RegisterIndexChecked_in :
    (∀ op ∈ (Instr.cmp 7 7).regOperands, op.toNat ≤ 7) ∧ State.reset.err = none ∧
      ∃ t, exec (.cmp 7 7) State.reset = .next t := ⟨by decide, rfl, _, rfl⟩
theorem witness_SequentialAdvance_room :
    advances (.ldi 7 1) State.reset.fl = true ∧ WellFormed (.ldi 7 1) ∧
      (∃ u, exec (.ldi 7 1) { stateAt 252 [] with pc := 0 } = .next u) ∧
      (stateAt 252 []).pc.toNat + (Instr.ldi 7 1).length ≤ 255 :=
  ⟨rfl, rfl, ⟨_, rfl⟩, by decide⟩
theorem witness_SequentialAdvance_overrun :
    advances (.pop 7) (stateAt 254 [5, 6]).fl = true ∧ WellFormed (.pop 7) ∧
      ((stateAt 254 [5, 6]).setReg 7 255).mem.cell 255 ≠ .empty ∧
      (∃ u, exec (.pop 7) { (stateAt 254 [5, 6]).setReg 7 255 with pc := 0 } = .next u) ∧
      255 < (stateAt 254 [5, 6]).pc.toNat + (Instr.pop 7).length :=
  ⟨rfl, rfl, by decide, ⟨_, rfl⟩, by decide⟩
theorem witness_FatalErrorsArePrecise_before :
    (stateAt 0 [0]).run = .running ∧ (stateAt 0 [0]).err = none ∧
      ∃ t, step (stateAt 0 [0]) = .next t ∧ t.err = some (.unrecognizedOpcode 0 (.byte 0)) :=
  ⟨rfl, rfl, _, rfl, rfl⟩
theorem witness_FatalErrorsArePrecise_advance :
    (stateAt 253 [0x82, 0, 7]).run = .running ∧ (stateAt 253 [0x82, 0, 7]).err = none ∧
      ∃ t, step (stateAt 253 [0x82, 0, 7]) = .next t ∧ t.err = some (.outOfBoundsPc 256) :=
  ⟨rfl, rfl, _, rfl, rfl⟩
theorem witness_HaltedEnteredTwoWays :
    (stateAt 255 [1]).run = .running ∧ (stateAt 255 [1]).err = none ∧
      ∃ t, step (stateAt 255 [1]) = .next t ∧ t.run = .halted := ⟨rfl, rfl, _, rfl, rfl⟩
theorem witness_ErrorLatchIsSticky_set :
    (stateAt 0 []).err = none ∧ ∃ t, step (stateAt 0 []) = .next t ∧ t.err ≠ none :=
  ⟨rfl, _, rfl, nofun⟩
theorem witness_ErrorLatchIsSticky_kept :
    ((stateAt 0 [1]).raise (.emptyRead 244)).Inv ∧
      ((stateAt 0 [1]).raise (.emptyRead 244)).err ≠ none ∧
      ∃ t, stepN 2 ((stateAt 0 [1]).raise (.emptyRead 244)) = .next t :=
  ⟨by decide, nofun, _, rfl⟩
theorem witness_StepKeepsInvariant :
    (stateAt 0 [0x45, 0]).Inv ∧ ∃ t, step (stateAt 0 [0x45, 0]) = .next t := ⟨by decide, _, rfl⟩
theorem witness_LaunchedRunsKeepInvariant :
    ∃ s t, launch [0x45, 0, 1] = some s ∧ stepN 2 s = .next t := ⟨_, _, rfl, rfl⟩
theorem witness_FlagsExactlyOneFromFirstCmp_cmp :
    (7 : Byte).toNat ≤ 7 ∧ ∃ t, exec (.cmp 7 0) State.reset = .next t ∧ t.fl.ExactlyOne :=
  ⟨by decide, _, rfl, by decide⟩
theorem witness_FlagsExactlyOneFromFirstCmp_branch :
    (7 : Byte).toNat = (7 : RegIndex).val ∧ (stateAt 253 []).pc.toNat + 2 ≤ 255 ∧
      (stateAt 253 []).fl = { equal := false, less := false, greater := false } := by decide
theorem witness_FlagsWrittenOnlyByCmp :
    ∃ t, exec (.cmp 0 0) State.reset = .next t ∧ t.fl ≠ State.reset.fl := ⟨_, rfl, by decide⟩
theorem witness_MemoryWrittenOnlyByPushes :
    ∃ t, exec (.call 0) State.reset = .next t ∧ t.mem.cell 243 ≠ State.reset.mem.cell 243 :=
  ⟨_, rfl, by decide⟩
theorem witness_MemoryWrittenOnlyByPushes_kept :
    (stateAt 0 [1]).mem.cell 0 ≠ .empty ∧ ∃ t, step (stateAt 0 [1]) = .next t :=
  ⟨by decide, _, rfl⟩
theorem witness_OutputGrowsOnlyByPrn :
    ∃ t, exec (.prn 7) State.reset = .next t ∧ t.out = [244] := ⟨_, rfl, rfl⟩
theorem witness_UnreadStateNeverInfluences :
    (stateAt 0 [0x47, 7]).AgreeOnReadable
        { stateAt 0 [0x47, 7] with
          out := [3]
          fl := { equal := false, less := true, greater := false } } ∧
      ∃ t, step (stateAt 0 [0x47, 7]) = .next t := ⟨⟨rfl, rfl, rfl, rfl, rfl, rfl⟩, _, rfl⟩
theorem witness_FrameOfLdiAddMul :
    ∃ t, exec (.add 1 7) State.reset = .next t ∧ (2 : RegIndex).val ≠ (1 : Byte).toNat :=
  ⟨_, rfl, by decide⟩
theorem witness_FrameOfPrnCmpJumpsHlt : ∃ t, exec (.jne 7) State.reset = .next t := ⟨_, rfl⟩
theorem witness_FrameOfPopRet :
    (∃ t, exec (.pop 0) ((stateAt 255 [4]).setReg 7 255) = .next t) ∧
      ∃ t, exec .ret ((stateAt 255 [4]).setReg 7 255) = .next t := ⟨⟨_, rfl⟩, _, rfl⟩
theorem witness_FrameOfPushCall :
    ∃ t, exec (.push 7) (State.reset.setReg 7 0) = .next t ∧ pushAddr (State.reset.setReg 7 0) = 255 :=
  ⟨_, rfl, by decide⟩
/-- LDI, ADD, MUL, CMP: the last address with room, register 7. -/
theorem witness_ThreeByteCompletes :
    (7 : Byte).toNat = (7 : RegIndex).val ∧ (stateAt 252 []).pc.toNat + 3 ≤ 255 := by decide
/-- PRN, PUSH: the last address with room, register 7. -/
theorem witness_TwoByteCompletes :
    (7 : Byte).toNat = (7 : RegIndex).val ∧ (stateAt 253 []).pc.toNat + 2 ≤ 255 := by decide
/-- POP (and RET, of which the second part alone is asked). -/
theorem witness_PopCompletes :
    (0 : Byte).toNat = (0 : RegIndex).val ∧
      ((stateAt 253 [0x46, 0, 9]).setReg 7 255).mem.cell
        (((stateAt 253 [0x46, 0, 9]).setReg 7 255).reg 7).toNat = .byte 9 ∧
      (stateAt 253 [0x46, 0, 9]).pc.toNat + 2 ≤ 255 := by decide
theorem witness_RetCompletes :
    ((stateAt 255 [9]).setReg 7 255).mem.cell (((stateAt 255 [9]).setReg 7 255).reg 7).toNat =
      .byte 9 := by decide
/-- JMP and CALL ask for a register in range alone. -/
theorem witness_JmpCallCompletes : (7 : Byte).toNat = (7 : RegIndex).val := by decide
/-- JEQ and JNE: Equal set and Equal clear, with room. -/
theorem witness_JeqJneCompletes :
    (stateAt 253 []).fl.equal = false ∧
      ((stateAt 253 []).setFlags { equal := true, less := false, greater := false }).fl.equal = true ∧
      (stateAt 253 []).pc.toNat + 2 ≤ 255 := by decide
theorem witness_EmptyStackReadIsFatal :
    State.reset.mem.cell (State.reset.reg 7).toNat = .empty ∧ (7 : Byte).toNat ≤ 7 := by decide
theorem witness_AluSupportsAddMulOnly : Mnemonic.CMP ≠ .ADD ∧ Mnemonic.CMP ≠ .MUL := by decide
theorem witness_MemReadCases :
    255 < 256 ∧ (stateAt 255 []).mem.cell 255 = .empty ∧ (stateAt 255 [3]).mem.cell 255 = .byte 3 := by
  decide
theorem witness_MemWriteStoresOneCell : 255 < 256 ∧ 255 ≤ 255 ∧ (stateAt 255 [3]).mem.wf := by decide
/-- A write that moves a cell, from `err = None`, and CALL at 254, whose return address wraps to 0. -/
theorem witness_MemWriteStoresOneCell_exec :
    (stateAt 254 []).err = none ∧ (7 : Byte).toNat ≤ 7 ∧ (stateAt 254 []).pc.toNat = 254 ∧
      ∃ t, exec (.call 7) (stateAt 254 []) = .next t ∧
        t.mem.cell 243 ≠ (stateAt 254 []).mem.cell 243 := ⟨rfl, by decide, rfl, _, rfl, by decide⟩
theorem witness_PushThenPopRestores :
    (7 : Byte).toNat ≤ 7 ∧ (stateAt 251 []).pc.toNat + 4 ≤ 255 := by decide
theorem witness_CallThenRetReturns :
    ∃ t u : State, exec (.call 7) State.reset = .next t ∧ u.mem = t.mem ∧ u.regs = t.regs :=
  ⟨_, _, rfl, rfl, rfl⟩
theorem witness_CompareThenBranch :
    (7 : Byte).toNat = (7 : RegIndex).val ∧ (stateAt 250 []).pc.toNat + 5 ≤ 255 ∧
      (stateAt 250 []).reg 0 = (stateAt 250 []).reg 1 ∧
      (stateAt 250 []).reg 0 ≠ (stateAt 250 []).reg 7 := by decide
/-- P9: a HLT pushed onto the next instruction. -/
theorem witness_StoreSeenByNextFetch_push :
    ∃ t, exec (.push 0) ((stateWith 6 [0x45, 0] 1 0).setReg 7 9) = .next t ∧ t.run = .running ∧
      t.pc.toNat = pushAddr ((stateWith 6 [0x45, 0] 1 0).setReg 7 9) ∧
      decode [1] = .ok (.hlt, []) := ⟨_, rfl, rfl, by decide, rfl⟩
/-- A CALL at 0xFF that pushes its return address 1, a HLT, where it jumps to. -/
theorem witness_StoreSeenByNextFetch_call :
    ∃ t, exec (.call 7) (stateAt 255 []) = .next t ∧ t.run = .running ∧
      t.pc.toNat = pushAddr (stateAt 255 []) ∧ (1 : Byte).toNat = ((stateAt 255 []).pc.toNat + 2) % 256 ∧
      decode [1] = .ok (.hlt, []) := ⟨_, rfl, rfl, by decide, by decide, rfl⟩
theorem witness_LaunchContract :
    ∃ p q : List Byte, p.length = 256 ∧ 256 < q.length :=
  ⟨List.replicate 256 0, List.replicate 257 0, List.length_replicate, by
    rw [List.length_replicate]; decide⟩

end Sys2Proof.Tests
end

section
/-! PROOFS. The statements on encoding (spec/30_encoding.md). -/

namespace Sys2Proof.Proofs

/-- Settles O4: whatever the operand bytes are, each row of R53's table is what `encode` and
`Instr.regOperands` compute from the mnemonic alone. -/
theorem staticOperandTable : Obligations.StaticOperandTable := by
  unfold Obligations.StaticOperandTable
  intro x y
  refine ⟨?ldi, ?prn, ?hlt, ?mul, ?push, ?pop, ?call, ?ret, ?add, ?cmp, ?jmp, ?jeq, ?jne⟩ <;>
    exact ⟨rfl, rfl⟩

end Sys2Proof.Proofs
end

section
/-! PROOFS. The statement on the push mechanic (spec/42_stack_subroutine.md R90). -/

namespace Sys2Proof.Proofs

open Sys2Proof.Machine

/-- Register 7 after the decrement is the address a push stores at. -/
theorem decSp_reg_seven_toNat (s : State) : (s.decSp.reg 7).toNat = pushAddr s := rfl

theorem decSp_sameRegsBut (s : State) : s.SameRegsBut s.decSp [7] := fun k hk => by
  rw [State.decSp_reg, if_neg (List.ne_of_not_mem_cons hk)]

/-- The push mechanic never raises: it leaves `pushed`, with the value taken after the decrement. -/
theorem push_eq_pushed (v : State → Nat) (s : State) :
    push v s = .ok (pushed s (BitVec.ofNat 8 (v s.decSp))) := push_eq v s

/-- Settles O44: the state between the two writes is `s.decSp`, whose register 7 is the address the
value is stored at. -/
theorem pushMechanic : Obligations.PushMechanic := by
  unfold Obligations.PushMechanic
  intro v s
  refine ⟨s.decSp, pushed s (BitVec.ofNat 8 (v s.decSp)), BitVec.ofNat 8 (v s.decSp),
    push_eq_pushed v s, ?sp, decSp_sameRegsBut s, rfl, BitVec.toNat_ofNat _ _, ?stored, ?kept, rfl⟩
  case sp => rw [decSp_reg_seven_toNat, pushAddr_eq]
  case stored => rw [decSp_reg_seven_toNat, pushed_mem, Memory.cell_write_same]
  case kept =>
    intro x hx
    rw [decSp_reg_seven_toNat] at hx
    rw [pushed_mem, Memory.cell_write_ne _ _ hx]

end Sys2Proof.Proofs
end

section
/-! PROOFS. The opcode table and the fetch (spec/30_encoding.md, spec/40_dispatch_system.md R70): which
bytes have a row, and that a fetch succeeds exactly where an encoding stands. -/

namespace Sys2Proof

/-- The encoder writes, for every instruction of the format, this opcode byte and then the operand
bytes. -/
def LayoutEncodes (opc : Byte) : Layout → Prop
  | .Z i => encode i = [opc]
  | .R mk => ∀ op0, encode (mk op0) = [opc, op0]
  | .RR mk => ∀ op0 op1, encode (mk op0 op1) = [opc, op0, op1]
  | .RI mk => ∀ op0 op1, encode (mk op0 op1) = [opc, op0, op1]

/-- Every row of the table agrees with the encoder, which is written from R56 on its own. -/
theorem layoutEncodes_of_lookupOpcode {opc : Byte} {l : Layout} (hl : lookupOpcode opc = some l) :
    LayoutEncodes opc l := by
  have hrow := mem_of_lookupOpcode hl
  simp only [opcodeTable, List.mem_cons, List.not_mem_nil, or_false, Prod.mk.injEq] at hrow
  rcases hrow with ⟨rfl, rfl⟩ | ⟨rfl, rfl⟩ | ⟨rfl, rfl⟩ | ⟨rfl, rfl⟩ | ⟨rfl, rfl⟩ | ⟨rfl, rfl⟩ |
    ⟨rfl, rfl⟩ | ⟨rfl, rfl⟩ | ⟨rfl, rfl⟩ | ⟨rfl, rfl⟩ | ⟨rfl, rfl⟩ | ⟨rfl, rfl⟩ | ⟨rfl, rfl⟩ <;>
    simp [LayoutEncodes, encode]

/-- What a row of the table completes is encoded by that row's opcode byte and the operand bytes
taken. -/
theorem cons_eq_encode_append {opc : Byte} {l : Layout} {tail rest : List Byte} {i : Instr}
    (hl : lookupOpcode opc = some l) (ht : l.takeOperands tail = some (i, rest)) :
    opc :: tail = encode i ++ rest := by
  have henc := layoutEncodes_of_lookupOpcode hl
  rcases takeOperands_some ht with
    ⟨rfl, rfl⟩ | ⟨mk, op0, rfl, rfl, rfl⟩ | ⟨mk, op0, op1, rfl | rfl, rfl, rfl⟩
  · rw [show encode i = [opc] from henc]; rfl
  · rw [henc op0]; rfl
  · rw [henc op0 op1]; rfl
  · rw [henc op0 op1]; rfl

/-- Decoding an encoding gives the instruction back (`Laws.RoundTrip`, every constructor). -/
theorem decode_encode_append (i : Instr) (rest : List Byte) :
    decode (encode i ++ rest) = .ok (i, rest) := by
  cases i with
  | ldi r v => exact Laws.RoundTrip.ldi r v rest
  | prn r => exact Laws.RoundTrip.prn r rest
  | hlt => exact Laws.RoundTrip.hlt rest
  | mul a b => exact Laws.RoundTrip.mul a b rest
  | push r => exact Laws.RoundTrip.push r rest
  | pop r => exact Laws.RoundTrip.pop r rest
  | call r => exact Laws.RoundTrip.call r rest
  | ret => exact Laws.RoundTrip.ret rest
  | add a b => exact Laws.RoundTrip.add a b rest
  | cmp a b => exact Laws.RoundTrip.cmp a b rest
  | jmp r => exact Laws.RoundTrip.jmp r rest
  | jeq r => exact Laws.RoundTrip.jeq r rest
  | jne r => exact Laws.RoundTrip.jne r rest

theorem decode_ok_iff {bytes rest : List Byte} {i : Instr} :
    decode bytes = .ok (i, rest) ↔ bytes = encode i ++ rest := by
  constructor
  · intro h
    obtain ⟨opc, tail, l, rfl, hl, ht⟩ := decode_ok h
    exact cons_eq_encode_append hl ht
  · rintro rfl
    exact decode_encode_append i rest

/-- An opcode byte is rejected by name exactly when the lookup answers no row: a row found never ends
in that rejection, whatever follows. -/
theorem decode_unrecognized_iff {opc : Byte} {rest : List Byte} :
    decode (opc :: rest) = .error (.unrecognized opc) ↔ lookupOpcode opc = none := by
  constructor
  · intro h
    cases hl : lookupOpcode opc with
    | none => rfl
    | some l =>
      cases ht : l.takeOperands rest with
      | none => rw [decode_missingOperand hl ht] at h; cases h
      | some r => rw [decode_of_takeOperands hl ht] at h; cases h
  · exact fun h => decode_unrecognized h rest

/-- The lookup answers no row exactly for the byte values that no row of the table has. -/
theorem lookupOpcode_eq_none_iff_toNat {opc : Byte} :
    lookupOpcode opc = none ↔ opc.toNat ∉ opcodeTable.map (fun row => row.1.toNat) := by
  simp only [lookupOpcode_eq_none, List.mem_map, not_exists, not_and, ne_eq, BitVec.toNat_inj]

/-- Every row of the table is the one found under its opcode byte: no byte has two rows. -/
theorem lookupOpcode_of_mem_opcodeTable {row : Byte × Layout} (h : row ∈ opcodeTable) :
    lookupOpcode row.1 = some row.2 := by
  simp only [opcodeTable, List.mem_cons, List.not_mem_nil, or_false] at h
  rcases h with rfl | rfl | rfl | rfl | rfl | rfl | rfl | rfl | rfl | rfl | rfl | rfl | rfl <;> rfl

/-- The opcode bytes of the formats with at least `n` operands have a row of such a format. -/
theorem exists_lookupOpcode_of_operandCount {opc : Byte} {n : Nat}
    (h : opc.toNat ∈ (opcodeTable.filter fun row => decide (n ≤ row.2.operandCount)).map
      (fun row => row.1.toNat)) :
    ∃ l, lookupOpcode opc = some l ∧ n ≤ l.operandCount := by
  obtain ⟨row, hrow, hopc⟩ := List.mem_map.1 h
  obtain ⟨hmem, hcount⟩ := List.mem_filter.1 hrow
  refine ⟨row.2, ?_, of_decide_eq_true hcount⟩
  rw [← BitVec.eq_of_toNat_eq hopc]
  exact lookupOpcode_of_mem_opcodeTable hmem

end Sys2Proof

namespace Sys2Proof.Machine

theorem memRead_eq_ok_iff {a : Nat} {s : State} {v : Byte} :
    memRead a s = .ok v ↔ a ≤ 255 ∧ s.mem.cell a = .byte v := by
  refine ⟨fun h => ?_, fun ⟨ha, hv⟩ => memRead_byte ha hv⟩
  rcases memRead_cases a s with ⟨-, he⟩ | ⟨-, -, he⟩ | ⟨w, ha, hw, he⟩ <;> rw [he] at h <;> cases h
  exact ⟨ha, hw⟩

/-- `MemRead` of a cell that is not Empty delivers a byte. -/
theorem exists_memRead_eq_ok {a : Nat} {s : State} (ha : a ≤ 255) (h : s.mem.cell a ≠ .empty) :
    ∃ v, memRead a s = .ok v := by
  cases hv : s.mem.cell a with
  | empty => exact absurd hv h
  | byte v => exact ⟨v, memRead_byte ha hv⟩

/-- The operand fetch takes its bytes from memory as the decoder takes them from a list (R50, R70). -/
theorem fetchOperands_eq_ok_iff {s : State} {l : Layout} {i : Instr} :
    fetchOperands s l = .ok i ↔
      ∃ ops, l.takeOperands ops = some (i, []) ∧ s.mem.Holds (s.pc.toNat + 1) ops := by
  constructor
  · intro h
    cases l with
    | Z j => cases h; exact ⟨[], rfl, trivial⟩
    | R mk =>
      rw [fetchOperands_R] at h
      cases h0 : memRead (s.pc.toNat + 1) s with
      | error e => rw [h0] at h; cases h
      | ok op0 =>
        rw [h0] at h
        cases h
        exact ⟨[op0], rfl, memRead_eq_ok_iff.1 h0, trivial⟩
    | RR mk =>
      rcases fetchOperands_two (s := s) (mk := mk) (.inl rfl) with
        ⟨e, -, he⟩ | ⟨op0, e, -, -, he⟩ | ⟨op0, op1, h0, h1, he⟩ <;> rw [he] at h <;> cases h
      exact ⟨[op0, op1], rfl, memRead_eq_ok_iff.1 h0, memRead_eq_ok_iff.1 h1, trivial⟩
    | RI mk =>
      rcases fetchOperands_two (s := s) (mk := mk) (.inr rfl) with
        ⟨e, -, he⟩ | ⟨op0, e, -, -, he⟩ | ⟨op0, op1, h0, h1, he⟩ <;> rw [he] at h <;> cases h
      exact ⟨[op0, op1], rfl, memRead_eq_ok_iff.1 h0, memRead_eq_ok_iff.1 h1, trivial⟩
  · rintro ⟨ops, ht, hops⟩
    rcases takeOperands_some ht with
      ⟨rfl, rfl⟩ | ⟨mk, op0, rfl, rfl, rfl⟩ | ⟨mk, op0, op1, hl, rfl, rfl⟩
    · rfl
    · obtain ⟨h0, -⟩ := hops
      rw [fetchOperands_R, memRead_eq_ok_iff.2 h0]
      rfl
    · obtain ⟨h0, h1, -⟩ := hops
      have h0 := memRead_eq_ok_iff.2 h0
      have h1 := memRead_eq_ok_iff.2 h1
      rcases hl with rfl | rfl <;> simp only [fetchOperands, h0, h1] <;> rfl

/-- A front part of what stands in memory stands in memory. -/
theorem Memory.Holds.of_append {m : Memory} {a : Nat} {bs cs : List Byte}
    (h : m.Holds a (bs ++ cs)) : m.Holds a bs := by
  induction bs generalizing a with
  | nil => trivial
  | cons b bs ih => exact ⟨h.1, ih h.2⟩

/-- A fetch answers an instruction exactly when its encoding stands at `pc` (R50, R70). -/
theorem fetch_eq_ok_iff {s : State} {i : Instr} :
    fetch s = .ok i ↔ s.mem.Holds s.pc.toNat (encode i) := by
  constructor
  · intro h
    cases hc : s.mem.cell s.pc.toNat with
    | empty => rw [fetch_empty hc] at h; cases h
    | byte opc =>
      cases hl : lookupOpcode opc with
      | none => rw [fetch_unrecognized hc hl] at h; cases h
      | some l =>
        rw [fetch_row hc hl] at h
        obtain ⟨ops, ht, hops⟩ := fetchOperands_eq_ok_iff.1 h
        have hbytes : opc :: ops = encode i := by simpa using cons_eq_encode_append hl ht
        have hpc := s.pc.isLt
        exact hbytes ▸ ⟨⟨by omega, hc⟩, hops⟩
  · intro h
    obtain ⟨opc, ops, l, hbytes, hl, ht⟩ :=
      decode_ok (show decode (encode i) = .ok (i, []) by simpa using decode_encode_append i [])
    rw [hbytes] at h
    obtain ⟨⟨-, hc⟩, hops⟩ := h
    rw [fetch_row hc hl]
    exact fetchOperands_eq_ok_iff.2 ⟨ops, ht, hops⟩

/-- The step's decoder is the decoder: bytes at `pc` that decode are fetched as what they decode to. -/
theorem fetch_of_holds {s : State} {bytes rest : List Byte} {i : Instr}
    (hm : s.mem.Holds s.pc.toNat bytes) (hd : decode bytes = .ok (i, rest)) : fetch s = .ok i :=
  fetch_eq_ok_iff.2 (decode_ok_iff.1 hd ▸ hm).of_append

/-- A failed first operand read is the fetch's error, whichever format with operands it is for. -/
theorem fetchOperands_error_first {s : State} {l : Layout} {e : FatalError}
    (hl : 1 ≤ l.operandCount) (h : memRead (s.pc.toNat + 1) s = .error e) :
    fetchOperands s l = .error e := by
  cases l with
  | Z i => simp [Layout.operandCount] at hl
  | R mk => simp only [fetchOperands, h]; rfl
  | RR mk => simp only [fetchOperands, h]; rfl
  | RI mk => simp only [fetchOperands, h]; rfl

/-- A failed second operand read is the fetch's error, once the first has delivered a byte. -/
theorem fetchOperands_error_second {s : State} {l : Layout} {v : Byte} {e : FatalError}
    (hl : 2 ≤ l.operandCount) (h0 : memRead (s.pc.toNat + 1) s = .ok v)
    (h1 : memRead (s.pc.toNat + 2) s = .error e) : fetchOperands s l = .error e := by
  cases l with
  | Z i => simp [Layout.operandCount] at hl
  | R mk => simp [Layout.operandCount] at hl
  | RR mk => simp only [fetchOperands, h0, h1]; rfl
  | RI mk => simp only [fetchOperands, h0, h1]; rfl

end Sys2Proof.Machine
end

section
/-! PROOFS. The statements on encoding and on the fetch stages of the step (spec/30_encoding.md,
spec/40_dispatch_system.md section 1). -/

namespace Sys2Proof.Proofs

open Sys2Proof.Machine

/-- Settles O1: rows of the table one way, `Laws.RoundTrip` the other. -/
theorem decodeIffEncode : Obligations.DecodeIffEncode :=
  fun _ _ _ => decode_ok_iff

/-- Settles O2: each of the 13 words is an encoding. -/
theorem decodesSpecWords : Obligations.DecodesSpecWords := by
  unfold Obligations.DecodesSpecWords
  intro x y rest
  exact ⟨decode_encode_append .hlt rest, decode_encode_append .ret rest,
    decode_encode_append (.push x) rest, decode_encode_append (.pop x) rest,
    decode_encode_append (.prn x) rest, decode_encode_append (.call x) rest,
    decode_encode_append (.jmp x) rest, decode_encode_append (.jeq x) rest,
    decode_encode_append (.jne x) rest, decode_encode_append (.ldi x y) rest,
    decode_encode_append (.add x y) rest, decode_encode_append (.mul x y) rest,
    decode_encode_append (.cmp x y) rest⟩

/-- Settles O3: rejection by name is a failed lookup, and the table's bytes are the 13. -/
theorem onlyThirteenOpcodes : Obligations.OnlyThirteenOpcodes := by
  unfold Obligations.OnlyThirteenOpcodes
  intro opc rest
  exact decode_unrecognized_iff.trans lookupOpcode_eq_none_iff_toNat

/-- Settles O5: bytes that decode begin with an encoding, and an encoding at `pc` is fetched. -/
theorem stepRunsDecodedInstruction : Obligations.StepRunsDecodedInstruction := by
  unfold Obligations.StepRunsDecodedInstruction
  intro s bytes rest i hrun hm hd
  exact step_of_fetch hrun (fetch_of_holds hm hd)

/-- Settles O7: the fetch fails at the opcode cell, Empty or with no row. -/
theorem unrecognizedOpcodeIsFatal : Obligations.UnrecognizedOpcodeIsFatal := by
  unfold Obligations.UnrecognizedOpcodeIsFatal
  intro s c hrun hc hopc
  cases c with
  | empty => exact step_of_fetch_error hrun (fetch_empty hc)
  | byte opc =>
    have hl : lookupOpcode opc = none := lookupOpcode_eq_none_iff_toNat.2 (hopc opc rfl)
    exact step_of_fetch_error hrun (fetch_unrecognized hc hl)

/-- Settles O8: the failing read is the first or the second one the row's format makes. -/
theorem operandFetchErrors : Obligations.OperandFetchErrors := by
  unfold Obligations.OperandFetchErrors
  intro s opc hrun hc hopc
  obtain ⟨l, hl, hcount⟩ := exists_lookupOpcode_of_operandCount (n := 1) hopc
  have hfirst {e} (h0 : memRead (s.pc.toNat + 1) s = .error e) : step s = .next (s.raise e) :=
    step_of_fetch_error hrun ((fetch_row hc hl).trans (fetchOperands_error_first hcount h0))
  have hsecond {v e} (hopc : opc.toNat ∈ [0x82, 0xA0, 0xA2, 0xA7])
      (h0 : memRead (s.pc.toNat + 1) s = .ok v) (h1 : memRead (s.pc.toNat + 2) s = .error e) :
      step s = .next (s.raise e) := by
    obtain ⟨l, hl, hcount⟩ := exists_lookupOpcode_of_operandCount (n := 2) hopc
    exact step_of_fetch_error hrun ((fetch_row hc hl).trans (fetchOperands_error_second hcount h0 h1))
  refine ⟨fun hpc => ?firstOut, fun hpc hcell => ?firstEmpty, fun hopc hpc hcell => ?secondOut,
    fun hopc hpc hcell h2 => ?secondEmpty⟩
  case firstOut =>
    have h0 : memRead (s.pc.toNat + 1) s = .error (.outOfBoundsMem 256) := by
      rw [hpc]; exact memRead_outOfBounds (by decide)
    exact hfirst h0
  case firstEmpty => exact hfirst (memRead_empty (by omega) hcell)
  case secondOut =>
    obtain ⟨v, h0⟩ := exists_memRead_eq_ok (by decide) hcell
    have h1 : memRead (s.pc.toNat + 2) s = .error (.outOfBoundsMem 256) := by
      rw [hpc]; exact memRead_outOfBounds (by decide)
    exact hsecond hopc (by rw [hpc]; exact h0) h1
  case secondEmpty =>
    obtain ⟨v, h0⟩ := exists_memRead_eq_ok (by omega) hcell
    exact hsecond hopc h0 (memRead_empty (by omega) h2)

end Sys2Proof.Proofs
end

section
/-! PROOFS. What `exec` leaves of each piece of the state, said once over `Executes`
(spec/10_state.md R11, R15, R19, spec/20_memory.md R31): the frames, the invariant and the statements on
who writes what are read off these. -/

namespace Sys2Proof.Machine

/-- Register `k` is one the instruction may write: its destination, register 7 for the stack. -/
def MayWriteReg (k : RegIndex) : Instr → Prop
  | .ldi r _ => r.toNat = k.val
  | .add a _ => a.toNat = k.val
  | .mul a _ => a.toNat = k.val
  | .push _ => k = 7
  | .pop r => r.toNat = k.val ∨ k = 7
  | .call _ => k = 7
  | .ret => k = 7
  | .prn _ => False
  | .hlt => False
  | .cmp _ _ => False
  | .jmp _ => False
  | .jeq _ => False
  | .jne _ => False

/-- PUSH and CALL, the instructions that store a byte (R31). -/
def Stores (i : Instr) : Prop := (∃ r, i = .push r) ∨ ∃ r, i = .call r

theorem reg_setReg_of_toNat_ne {r : Byte} {x k : RegIndex} (s : State) (v : Byte)
    (hr : r.toNat = x.val) (hk : r.toNat ≠ k.val) : (s.setReg x v).reg k = s.reg k :=
  s.reg_setReg_ne v fun hkx => hk (by rw [hr, hkx])

theorem decSp_reg_of_ne {s : State} {k : RegIndex} (hk : k ≠ 7) : s.decSp.reg k = s.reg k := by
  rw [State.decSp_reg, if_neg hk]

theorem incSp_reg_of_ne {s : State} {k : RegIndex} (hk : k ≠ 7) : s.incSp.reg k = s.reg k := by
  rw [State.incSp_reg, if_neg hk]

/-! Registers. -/

theorem Effect.reg_eq {s u : State} {i : Instr} {k : RegIndex} (h : Effect s i u)
    (hk : ¬ MayWriteReg k i) : u.reg k = s.reg k := by
  cases h with
  | ldi r v x hr => exact reg_setReg_of_toNat_ne s _ hr hk
  | add a b x y ha hb => exact reg_setReg_of_toNat_ne s _ ha hk
  | mul a b x y ha hb => exact reg_setReg_of_toNat_ne s _ ha hk
  | push r x hr => exact decSp_reg_of_ne hk
  | pop r v x hr hv =>
    obtain ⟨hr', h7⟩ := not_or.1 hk
    exact (incSp_reg_of_ne h7).trans (reg_setReg_of_toNat_ne s v hr hr')
  | prn | cmp | jeq | jne => rfl

theorem Transfer.reg_eq {s t : State} {i : Instr} {k : RegIndex} (h : Transfer s i t)
    (hk : ¬ MayWriteReg k i) : t.reg k = s.reg k := by
  cases h with
  | call r x hr => exact decSp_reg_of_ne hk
  | ret v hv => exact incSp_reg_of_ne hk
  | jmp | jeq | jne => rfl

/-- No instruction changes a register it may not write. -/
theorem exec_reg {s t : State} {i : Instr} {k : RegIndex} (h : exec i s = .next t)
    (hk : ¬ MayWriteReg k i) : t.reg k = s.reg k := by
  cases exec_executes h with
  | raised | halted => rfl
  | advanced u hu => exact (advance_reg u _ k).trans (hu.reg_eq hk)
  | transferred _ ht => exact ht.reg_eq hk

/-! Memory. -/

theorem Effect.mem_cases {s u : State} {i : Instr} (h : Effect s i u) :
    u.mem = s.mem ∨ Stores i ∧ ∃ v, u.mem = s.mem.write (pushAddr s) v := by
  cases h with
  | push r x hr => exact .inr ⟨.inl ⟨r, rfl⟩, _, rfl⟩
  | ldi | prn | add | mul | cmp | pop | jeq | jne => exact .inl rfl

theorem Transfer.mem_cases {s t : State} {i : Instr} (h : Transfer s i t) :
    t.mem = s.mem ∨ Stores i ∧ ∃ v, t.mem = s.mem.write (pushAddr s) v := by
  cases h with
  | call r x hr => exact .inr ⟨.inr ⟨r, rfl⟩, _, rfl⟩
  | ret | jmp | jeq | jne => exact .inl rfl

/-- Memory is as before, or PUSH or CALL wrote one byte of it, at the store address. -/
theorem exec_mem {s t : State} {i : Instr} (h : exec i s = .next t) :
    t.mem = s.mem ∨ Stores i ∧ ∃ v, t.mem = s.mem.write (pushAddr s) v := by
  cases exec_executes h with
  | raised | halted => exact .inl rfl
  | advanced u hu => rw [advance_mem]; exact hu.mem_cases
  | transferred _ ht => exact ht.mem_cases

/-- A cell an instruction changes is a PUSH's or a CALL's, at the store address. -/
theorem exec_cell_ne {s t : State} {i : Instr} {a : Nat} (h : exec i s = .next t)
    (ha : t.mem.cell a ≠ s.mem.cell a) : Stores i ∧ a = pushAddr s := by
  rcases exec_mem h with hm | ⟨hi, v, hm⟩
  · exact absurd (by rw [hm]) ha
  · refine ⟨hi, not_not.1 fun hne => ha ?_⟩
    rw [hm, Memory.cell_write_ne _ _ hne]

theorem exec_sameMem {s t : State} {i : Instr} (h : exec i s = .next t)
    (hi : ¬ Stores i) : s.SameMem t :=
  fun _ => not_not.1 fun hne => hi (exec_cell_ne h hne).1

/-! Flags and output. -/

theorem Effect.fl_cases {s u : State} {i : Instr} (h : Effect s i u) :
    u.fl = s.fl ∨ (∃ a b, i = .cmp a b) ∧ ∃ x y, u.fl = compareFlags x y := by
  cases h with
  | cmp a b x y ha hb => exact .inr ⟨⟨a, b, rfl⟩, _, _, rfl⟩
  | ldi | prn | add | mul | push | pop | jeq | jne => exact .inl rfl

theorem Transfer.fl_eq {s t : State} {i : Instr} (h : Transfer s i t) : t.fl = s.fl := by
  cases h <;> rfl

/-- The flags are as before, or a CMP's. -/
theorem exec_fl {s t : State} {i : Instr} (h : exec i s = .next t) :
    t.fl = s.fl ∨ (∃ a b, i = .cmp a b) ∧ ∃ x y, t.fl = compareFlags x y := by
  cases exec_executes h with
  | raised | halted => exact .inl rfl
  | advanced u hu => rw [advance_fl]; exact hu.fl_cases
  | transferred _ ht => exact .inl ht.fl_eq

theorem exec_fl_eq {s t : State} {i : Instr} (h : exec i s = .next t)
    (hi : ¬ ∃ a b, i = .cmp a b) : t.fl = s.fl :=
  (exec_fl h).resolve_right fun hc => hi hc.1

theorem Effect.out_cases {s u : State} {i : Instr} (h : Effect s i u) :
    u.out = s.out ∨ ∃ (r : Byte) (k : RegIndex), i = .prn r ∧ r.toNat = k.val ∧
      u.out = s.out ++ [s.reg k] := by
  cases h with
  | prn r x hr => exact .inr ⟨r, x, rfl, hr, rfl⟩
  | ldi | add | mul | cmp | push | pop | jeq | jne => exact .inl rfl

theorem Transfer.out_eq {s t : State} {i : Instr} (h : Transfer s i t) : t.out = s.out := by
  cases h <;> rfl

/-- The output is as before, or a PRN appended its register. -/
theorem exec_out {s t : State} {i : Instr} (h : exec i s = .next t) :
    t.out = s.out ∨ ∃ (r : Byte) (k : RegIndex), i = .prn r ∧ r.toNat = k.val ∧
      t.out = s.out ++ [s.reg k] := by
  cases exec_executes h with
  | raised | halted => exact .inl rfl
  | advanced u hu => rw [advance_out]; exact hu.out_cases
  | transferred _ ht => exact .inl ht.out_eq

theorem exec_out_eq {s t : State} {i : Instr} (h : exec i s = .next t)
    (hi : ∀ r, i ≠ .prn r) : t.out = s.out :=
  (exec_out h).resolve_right fun ⟨r, _, hr, _⟩ => hi r hr

/-! Run state and error latch. -/

/-- How an instruction leaves `run` and `err`: as before, halted by HLT, with an error raised before
its writes, or with the advance's. -/
theorem exec_run_err {s t : State} {i : Instr} (h : exec i s = .next t) :
    s.SameRun t ∨ (i = .hlt ∧ t = s.halt) ∨ (∃ e, Raises s i e ∧ t = s.raise e) ∨
      (t.run = .halted ∧ ∃ n, t.err = some (.outOfBoundsPc n)) := by
  cases exec_executes h with
  | raised e he => exact .inr (.inr (.inl ⟨e, he, rfl⟩))
  | halted hi => exact .inr (.inl ⟨hi, rfl⟩)
  | advanced u hu =>
    rcases advance_cases u i.length with ⟨-, -, hrun, herr⟩ | ⟨-, -, hrun, herr⟩
    · exact .inl ⟨hrun.trans hu.run_eq, herr.trans hu.err_eq⟩
    · exact .inr (.inr (.inr ⟨hrun, _, herr⟩))
  | transferred _ ht => exact .inl ⟨ht.run_eq, ht.err_eq⟩

theorem exec_sameRunOrFatal {s t : State} {i : Instr} (h : exec i s = .next t) (hi : i ≠ .hlt) :
    s.SameRunOrFatal t := by
  rcases exec_run_err h with hs | ⟨hh, -⟩ | ⟨e, -, rfl⟩ | ⟨hrun, n, herr⟩
  · exact .inl hs
  · exact absurd hh hi
  · exact .inr ⟨rfl, e, rfl⟩
  · exact .inr ⟨hrun, _, herr⟩

/-- A new error an instruction leaves is one it raises before its writes, or the advance's. -/
theorem exec_err {s t : State} {i : Instr} {e : FatalError} (hs : s.err = none)
    (h : exec i s = .next t) (he : t.err = some e) :
    Raises s i e ∨ ∃ n, e = .outOfBoundsPc n := by
  rcases exec_run_err h with ⟨-, herr⟩ | ⟨-, rfl⟩ | ⟨e', hr, rfl⟩ | ⟨-, n, herr⟩
  · rw [herr, hs] at he; cases he
  · rw [State.halt_err, hs] at he; cases he
  · cases he; exact .inl hr
  · rw [herr] at he; cases he; exact .inr ⟨n, rfl⟩

/-- With every register operand in range no index error is raised (R71). -/
theorem Raises.ne_reg {s : State} {i : Instr} {e : FatalError} (h : Raises s i e)
    (hi : ∀ op ∈ i.regOperands, op.toNat ≤ 7) (n : Nat) : e ≠ .outOfBoundsReg n := by
  cases h with
  | index _ op hm hop => exact absurd (hi op hm) (Nat.not_le.2 hop)
  | pop | ret => nofun

/-- No instruction raises OutOfBounds(Mem, a): the addresses it uses are those of the stack pointer. -/
theorem Raises.ne_mem {s : State} {i : Instr} {e : FatalError} (h : Raises s i e) (a : Nat) :
    e ≠ .outOfBoundsMem a := by
  cases h <;> nofun

/-! That `exec` answers a next state, and the index check. -/

theorem withReg_next {op : Byte} {s : State} {k : RegIndex → Result} (h : ∀ x, ∃ t, k x = .next t) :
    ∃ t, withReg op s k = .next t := orRaise_next h

theorem withRegs_next {a b : Byte} {s : State} {k : RegIndex → RegIndex → Result}
    (h : ∀ x y, ∃ t, k x y = .next t) : ∃ t, withRegs a b s k = .next t :=
  withReg_next fun x => withReg_next (h x)

/-- Every instruction answers a next state: every check and read goes on or takes its fatal error, and
the arithmetic unit is asked for ADD and MUL only. -/
theorem exists_exec_eq_next (i : Instr) (s : State) : ∃ t, exec i s = .next t := by
  cases i with
  | ldi | prn | jmp | jeq | jne => exact withReg_next fun _ => ⟨_, rfl⟩
  | push | pop | call => exact withReg_next fun _ => orRaise_next fun _ => ⟨_, rfl⟩
  | add | mul | cmp => exact withRegs_next fun _ _ => ⟨_, rfl⟩
  | ret => exact orRaise_next fun _ => ⟨_, rfl⟩
  | hlt => exact ⟨_, rfl⟩

/-- The first register operand out of range is the error taken, whatever the instruction (R71). -/
theorem exec_bad_first {i : Instr} {op : Byte} {ops : List Byte} (s : State)
    (hi : i.regOperands = op :: ops) (hop : 7 < op.toNat) :
    exec i s = .next (s.raise (.outOfBoundsReg op.toNat)) := by
  cases i with
  | hlt | ret => cases hi
  | ldi | prn | push | pop | call | jmp | jeq | jne | add | mul | cmp =>
    cases hi; exact withReg_bad s _ hop

/-- The second register operand out of range is the error taken, the first being in range (R71). -/
theorem exec_bad_second {i : Instr} {a b : Byte} (s : State) (hi : i.regOperands = [a, b])
    (ha : a.toNat ≤ 7) (hb : 7 < b.toNat) :
    exec i s = .next (s.raise (.outOfBoundsReg b.toNat)) := by
  have hx : a.toNat = (⟨a.toNat, by omega⟩ : RegIndex).val := rfl
  cases i with
  | hlt | ret | ldi | prn | push | pop | call | jmp | jeq | jne => cases hi
  | add | mul | cmp => cases hi; exact (withReg_ok s _ hx).trans (withReg_bad s _ hb)

/-! Stage 5: the advance (R73). -/

theorem length_le_three (i : Instr) : i.length ≤ 3 := by
  cases i <;> simp [Instr.length, encode]

theorem setPc_setPc (s : State) (p q : Byte) : (s.setPc p).setPc q = s.setPc q := rfl

/-- With room the instruction leaves its writes with `pc` moved by its length. -/
theorem exec_of_effect_room {s u : State} {i : Instr} (h : Effect s i u)
    (hpc : s.pc.toNat + i.length ≤ 255) :
    exec i s = .next (u.setPc (BitVec.ofNat 8 (s.pc.toNat + i.length))) := by
  rw [← h.pc_eq] at hpc ⊢
  rw [exec_of_effect h, advance_ok hpc]

/-- Past 255 the instruction leaves its writes and takes the advance's error. -/
theorem exec_of_effect_overrun {s u : State} {i : Instr} (h : Effect s i u)
    (hpc : 255 < s.pc.toNat + i.length) :
    exec i s = .next (u.raise (.outOfBoundsPc (s.pc.toNat + i.length))) := by
  rw [← h.pc_eq] at hpc ⊢
  rw [exec_of_effect h, advance_overrun hpc]

/-- At `pc = 0` there is room for every instruction, and the writes are those it makes anywhere. -/
theorem exec_at_zero {s u : State} {i : Instr} (h : Effect s i u) :
    exec i (s.setPc 0) = .next (u.setPc (BitVec.ofNat 8 i.length)) := by
  have hlen := length_le_three i
  have hzero : (s.setPc 0).pc.toNat = 0 := rfl
  rw [exec_of_effect_room (h.setPc 0) (by omega), setPc_setPc, hzero, Nat.zero_add]

theorem toNat_ofNat_of_le {n : Nat} (h : n ≤ 255) : (BitVec.ofNat 8 n).toNat = n := by
  rw [BitVec.toNat_ofNat]; omega

/-- An instruction that advances, its registers in range and for POP a byte at `sp`, has its effect. -/
theorem exists_effect {s : State} {i : Instr} (ha : advances i s.fl = true) (hw : WellFormed i)
    (hpop : ∀ r, i = .pop r → s.mem.cell s.sp.toNat ≠ .empty) : ∃ u, Effect s i u := by
  have hreg : ∀ op ∈ i.regOperands, ∃ x : RegIndex, op.toNat = x.val := fun op hop =>
    ⟨⟨op.toNat, Nat.lt_succ_of_le (of_decide_eq_true (List.all_eq_true.1 hw op hop))⟩, rfl⟩
  cases i with
  | hlt | ret | call | jmp => cases ha
  | ldi r v => obtain ⟨x, hx⟩ := hreg r (.head _); exact ⟨_, .ldi r v x hx⟩
  | prn r => obtain ⟨x, hx⟩ := hreg r (.head _); exact ⟨_, .prn r x hx⟩
  | push r => obtain ⟨x, hx⟩ := hreg r (.head _); exact ⟨_, .push r x hx⟩
  | pop r =>
    obtain ⟨x, hx⟩ := hreg r (.head _)
    rcases readTop_cases s with ⟨hv, -⟩ | ⟨v, hv, -⟩
    · exact absurd hv (hpop r rfl)
    · exact ⟨_, .pop r v x hx hv⟩
  | add a b =>
    obtain ⟨x, hx⟩ := hreg a (.head _)
    obtain ⟨y, hy⟩ := hreg b (.tail _ (.head _))
    exact ⟨_, .add a b x y hx hy⟩
  | mul a b =>
    obtain ⟨x, hx⟩ := hreg a (.head _)
    obtain ⟨y, hy⟩ := hreg b (.tail _ (.head _))
    exact ⟨_, .mul a b x y hx hy⟩
  | cmp a b =>
    obtain ⟨x, hx⟩ := hreg a (.head _)
    obtain ⟨y, hy⟩ := hreg b (.tail _ (.head _))
    exact ⟨_, .cmp a b x y hx hy⟩
  | jeq r =>
    obtain ⟨x, hx⟩ := hreg r (.head _)
    exact ⟨_, .jeq r x hx (by simpa [advances] using ha)⟩
  | jne r => obtain ⟨x, hx⟩ := hreg r (.head _); exact ⟨_, .jne r x hx ha⟩

end Sys2Proof.Machine
end

section
/-! PROOFS. The step and a run of steps (spec/40_dispatch_system.md R70, R76, R77): each piece of the
state after a step, and what every step keeps every run keeps. -/

namespace Sys2Proof.Machine

theorem step_halted {s : State} (h : s.run = .halted) : step s = .next s := by
  simp only [step, h]

theorem step_mem {s t : State} (h : step s = .next t) :
    t.mem = s.mem ∨ ∃ v, t.mem = s.mem.write (pushAddr s) v := by
  rcases step_cases h with ⟨-, rfl⟩ | ⟨-, e, -, rfl⟩ | ⟨-, i, -, hx⟩
  · exact .inl rfl
  · exact .inl rfl
  · exact (exec_mem hx).imp_right And.right

theorem step_fl {s t : State} (h : step s = .next t) :
    t.fl = s.fl ∨ ∃ x y, t.fl = compareFlags x y := by
  rcases step_cases h with ⟨-, rfl⟩ | ⟨-, e, -, rfl⟩ | ⟨-, i, -, hx⟩
  · exact .inl rfl
  · exact .inl rfl
  · exact (exec_fl hx).imp_right And.right

/-- A step leaves the latch alone, or takes a fatal error and halts. -/
theorem step_err {s t : State} (h : step s = .next t) :
    t.err = s.err ∨ (t.run = .halted ∧ ∃ e, t.err = some e) := by
  rcases step_cases h with ⟨-, rfl⟩ | ⟨-, e, -, rfl⟩ | ⟨-, i, -, hx⟩
  · exact .inl rfl
  · exact .inr ⟨rfl, e, rfl⟩
  · by_cases hi : i = .hlt
    · subst hi; cases hx; exact .inl rfl
    · exact (exec_sameRunOrFatal hx hi).imp_left And.right

/-- The two moments of a new error (R115 to R117): in the state before the step, or the advance's in the
state of the instruction's writes. -/
theorem step_new_err {s t : State} {e : FatalError} (hrun : s.run = .running) (hs : s.err = none)
    (h : step s = .next t) (he : t.err = some e) :
    ((∀ n, e ≠ .outOfBoundsPc n) ∧ t = s.raise e) ∨
      ∃ i u n, fetch s = .ok i ∧ Effect s i u ∧ e = .outOfBoundsPc n ∧ t = u.raise e := by
  rcases step_cases h with ⟨hhalt, -⟩ | ⟨-, e', hf, rfl⟩ | ⟨-, i, hf, hx⟩
  · rw [hrun] at hhalt; cases hhalt
  · cases he; exact .inl ⟨fun _ => fetch_error_ne_pc hf, rfl⟩
  cases exec_executes hx with
  | raised e' he' => cases he; exact .inl ⟨he'.ne_pc, rfl⟩
  | halted hi => rw [State.halt_err, hs] at he; cases he
  | transferred _ ht => rw [ht.err_eq, hs] at he; cases he
  | advanced u hu =>
    by_cases hroom : u.pc.toNat + i.length ≤ 255
    · rw [advance_err hroom, hu.err_eq, hs] at he; cases he
    · rw [advance_overrun (by omega)] at he ⊢
      cases he
      exact .inr ⟨i, u, _, hf, hu, rfl, rfl⟩

/-- Whatever holds of unchanged flags and of every comparison's result is kept by a step. -/
theorem step_keeps_fl {P : Flags → Prop} (hP : ∀ x y, P (compareFlags x y)) {s t : State}
    (hs : P s.fl) (h : step s = .next t) : P t.fl := by
  rcases step_fl h with he | ⟨x, y, he⟩ <;> rw [he]
  · exact hs
  · exact hP x y

/-- Every step keeps the invariant: memory by its one write, the flags by CMP's, `err` by the
fatal-error entry (R23). -/
theorem step_keeps_inv {s t : State} (hs : s.Inv) (h : step s = .next t) : t.Inv := by
  obtain ⟨hmem, hfl, herr⟩ := hs
  refine ⟨?mem, step_keeps_fl (fun x y => (compareFlags_exactlyOne x y).1) hfl h, ?err⟩
  case mem =>
    rcases step_mem h with he | ⟨v, he⟩ <;> rw [he]
    · exact hmem
    · exact Memory.wf_write hmem (pushAddr_le s) v
  case err =>
    intro ht
    rcases step_err h with he | ⟨hrun, -⟩
    · have hhalt := herr (he ▸ ht)
      rw [step_halted hhalt] at h
      cases h
      exact hhalt
    · exact hrun

theorem stepN_succ {s t : State} (n : Nat) (h : step s = .next t) :
    stepN (n + 1) s = stepN n t := by
  simp only [stepN, h]

theorem exists_step_eq_next (s : State) : ∃ t, step s = .next t := by
  cases hr : s.run with
  | halted => exact ⟨s, step_halted hr⟩
  | running =>
    rcases step_running_cases hr with ⟨e, -, he⟩ | ⟨i, -, he⟩
    · exact ⟨_, he⟩
    · exact he ▸ exists_exec_eq_next i s

theorem stepN_halted {s : State} (n : Nat) (h : s.run = .halted) : stepN n s = .next s := by
  induction n with
  | zero => rfl
  | succ n ih => rw [stepN_succ n (step_halted h), ih]

/-- A run of `m + n` steps is one of `n` steps from the state after `m` (R76). -/
theorem stepN_add {m : Nat} (n : Nat) {s t : State} (h : stepN m s = .next t) :
    stepN (m + n) s = stepN n t := by
  induction m generalizing s with
  | zero => cases h; rw [Nat.zero_add]
  | succ m ih =>
    obtain ⟨u, hu⟩ := exists_step_eq_next s
    rw [stepN_succ m hu] at h
    rw [Nat.succ_add, stepN_succ _ hu, ih h]

/-- What every step keeps, every run keeps. -/
theorem stepN_keeps {P : State → Prop} (hP : ∀ s t, P s → step s = .next t → P t) {n : Nat}
    {s t : State} (hs : P s) (h : stepN n s = .next t) : P t := by
  induction n generalizing s with
  | zero => cases h; exact hs
  | succ n ih =>
    obtain ⟨u, hu⟩ := exists_step_eq_next s
    rw [stepN_succ n hu] at h
    exact ih (hP s u hs hu) h

theorem reset_inv : State.reset.Inv := ⟨Memory.wf_nil, by decide, nofun⟩

/-- A program has a launch exactly if it has at most 256 bytes, and this is it (R133). -/
theorem launch_eq_some_iff {p : List Byte} {s : State} :
    launch p = some s ↔ p.length ≤ 256 ∧ s = { State.reset with mem := Memory.load [] 0 p } := by
  by_cases hp : p.length ≤ 256
  · rw [launch, if_pos hp, Option.some_inj]
    exact ⟨fun h => ⟨hp, h.symm⟩, fun h => h.2.symm⟩
  · rw [launch, if_neg hp]
    exact ⟨nofun, fun h => absurd h.1 hp⟩

theorem launch_inv {p : List Byte} {s : State} (h : launch p = some s) : s.Inv := by
  obtain ⟨hp, rfl⟩ := launch_eq_some_iff.1 h
  obtain ⟨-, hfl, herr⟩ := reset_inv
  exact ⟨Memory.wf_load Memory.wf_nil (by omega), hfl, herr⟩

end Sys2Proof.Machine
end

section
/-! PROOFS. The statements on runs, on the invariant and on the run state and the error latch
(spec/10_state.md sections 5, 6, 9, spec/60_exceptions.md, spec/70_reset_and_hazards.md). -/

namespace Sys2Proof.Proofs

open Sys2Proof.Machine

/-- Settles O15: `step_keeps_inv`, a clause each for memory, flags and the latch. -/
theorem stepKeepsInvariant : Obligations.StepKeepsInvariant :=
  fun _ _ hs h => step_keeps_inv hs h

/-- Settles O16: nothing is written, no flag is set, the latch is `None`. -/
theorem resetMeetsInvariant : Obligations.ResetMeetsInvariant := reset_inv

/-- Settles O17: a launch meets the invariant and every step keeps it. -/
theorem launchedRunsKeepInvariant : Obligations.LaunchedRunsKeepInvariant :=
  fun _ _ _ _ hp h => stepN_keeps (fun _ _ => step_keeps_inv) (launch_inv hp) h

/-- Settles O6: the second clause by induction on the first number of steps. -/
theorem steppingChangesNothing : Obligations.SteppingChangesNothing :=
  ⟨fun _ h => step_halted h, fun _ n _ _ h => stepN_add n h⟩

/-- Settles O12: every check, read and write of an instruction goes on or takes its fatal error. -/
theorem everyStepAnswersNext : Obligations.EveryStepAnswersNext :=
  ⟨exists_exec_eq_next, exists_step_eq_next⟩

/-- Settles O13: the fetch error, and each way an instruction ends; an HLT fetched stood at `pc`. -/
theorem haltedEnteredTwoWays : Obligations.HaltedEnteredTwoWays := by
  unfold Obligations.HaltedEnteredTwoWays
  refine ⟨rfl, fun s t hrun _ h ht => ?entered, fun _ n h => stepN_halted n h, fun _ => rfl⟩
  case entered =>
    rcases step_cases h with ⟨hhalt, -⟩ | ⟨-, e, -, rfl⟩ | ⟨-, i, hf, hx⟩
    · rw [hrun] at hhalt; cases hhalt
    · exact .inr ⟨e, rfl⟩
    · rcases exec_run_err hx with ⟨hsame, -⟩ | ⟨rfl, rfl⟩ | ⟨e, -, rfl⟩ | ⟨-, n, herr⟩
      · rw [hsame, hrun] at ht; cases ht
      · obtain ⟨⟨-, hcell⟩, -⟩ := fetch_eq_ok_iff.1 hf
        exact .inl ⟨hcell, rfl⟩
      · exact .inr ⟨e, rfl⟩
      · exact .inr ⟨_, herr⟩

/-- Settles O14: with the latch set the invariant gives Halted, where nothing changes. -/
theorem errorLatchIsSticky : Obligations.ErrorLatchIsSticky := by
  unfold Obligations.ErrorLatchIsSticky
  refine ⟨rfl, fun s t hs h ht => ?set, fun s t n hinv hs h => ?kept⟩
  case set =>
    rcases step_err h with he | ⟨hrun, -⟩
    · exact absurd (he.trans hs) ht
    · exact ⟨hrun, ht⟩
  case kept =>
    obtain ⟨-, -, herr⟩ := hinv
    rw [stepN_halted n (herr hs)] at h
    cases h
    rfl

/-- Settles O11: the state of the writes is one that `pc` does not enter. -/
theorem fatalErrorsArePrecise : Obligations.FatalErrorsArePrecise := by
  unfold Obligations.FatalErrorsArePrecise
  intro s t e hrun hs h ht
  rcases step_new_err hrun hs h ht with ⟨hne, rfl⟩ | ⟨i, u, n, hf, hu, rfl, rfl⟩
  · exact ⟨rfl, rfl, step_halted rfl, fun _ => ⟨rfl, rfl, rfl, rfl⟩, fun n hn => absurd hn (hne n)⟩
  · refine ⟨rfl, hu.pc_eq, step_halted rfl, fun hne => absurd rfl (hne n), fun _ _ => ?_⟩
    exact ⟨i, _, hf, exec_at_zero hu, hu.err_eq.trans hs, by rw [← hu.pc_eq]; rfl⟩

end Sys2Proof.Proofs
end

section
/-! PROOFS. Two states that agree on everything an instruction can read step alike (spec/10_state.md R15,
R19): the checks and reads deliver the same, so the same branch is taken and the same is written. -/

namespace Sys2Proof.Machine

/-- `t` and `t'`, reached from `s` and `s'`, agree on everything readable, and both runs appended the
same values to the output. -/
structure Alike (s s' t t' : State) : Prop where
  agree : t.AgreeOnReadable t'
  appended : ∃ vs, t.out = s.out ++ vs ∧ t'.out = s'.out ++ vs

/-- Whatever next state the one outcome answers, the other answers one alike. -/
def ResultsAlike (s s' : State) (r r' : Result) : Prop :=
  ∀ t, r = .next t → ∃ t', r' = .next t' ∧ Alike s s' t t'

/-- `s` with other contents in what nothing reads. -/
def State.withUnread (s : State) (l g : Bool) (out : List Byte) : State :=
  { s with fl := { equal := s.fl.equal, less := l, greater := g }, out := out }

/-- The states that agree with `s` on everything readable are those with other unread contents. -/
theorem State.AgreeOnReadable.eq_withUnread {s s' : State} (h : s.AgreeOnReadable s') :
    s' = s.withUnread s'.fl.less s'.fl.greater s'.out := by
  obtain ⟨mem, regs, pc, ⟨e, l, g⟩, run, err, out⟩ := s'
  obtain ⟨hmem, hregs, hpc, he, hrun, herr⟩ := h
  dsimp only at hmem hregs hpc he hrun herr
  subst hmem hregs hpc he hrun herr
  rfl

theorem Alike.of_out_eq {s s' t t' : State} (h : t.AgreeOnReadable t') (ht : t.out = s.out)
    (ht' : t'.out = s'.out) : Alike s s' t t' :=
  ⟨h, [], by rw [ht, List.append_nil], by rw [ht', List.append_nil]⟩

/-- The advance goes by `pc` alone, so it keeps two states alike. -/
theorem Alike.advance {s s' t t' : State} {len : Nat} (h : Alike s s' t t') :
    Alike s s' (t.advance len) (t'.advance len) := by
  obtain ⟨⟨hmem, hregs, hpc, he, hrun, herr⟩, vs, ht, ht'⟩ := h
  by_cases hroom : t.pc.toNat + len ≤ 255
  · rw [advance_ok hroom, advance_ok (hpc ▸ hroom), hpc]
    exact ⟨⟨hmem, hregs, rfl, he, hrun, herr⟩, vs, ht, ht'⟩
  · have hover : 255 < t.pc.toNat + len := Nat.not_le.1 hroom
    rw [advance_overrun hover, advance_overrun (hpc ▸ hover), hpc]
    exact ⟨⟨hmem, hregs, hpc, he, rfl, rfl⟩, vs, ht, ht'⟩

theorem Alike.ite {s s' t t' u u' : State} {c : Prop} [Decidable c] (ht : Alike s s' t t')
    (hu : Alike s s' u u') : Alike s s' (if c then t else u) (if c then t' else u') := by
  split
  · exact ht
  · exact hu

theorem ResultsAlike.of_next {s s' t t' : State} (h : Alike s s' t t') :
    ResultsAlike s s' (.next t) (.next t') := fun _ hu => by cases hu; exact ⟨t', rfl, h⟩

section
variable {s : State} {l g : Bool} {out : List Byte}

/-- One check or read, answered the same on both sides: the error is taken alike, or both go on. -/
theorem orRaise_resultsAlike {α : Type} (r : Except FatalError α) {k k' : α → Result}
    (h : ∀ x, ResultsAlike s (s.withUnread l g out) (k x) (k' x)) :
    ResultsAlike s (s.withUnread l g out) (orRaise s r k)
      (orRaise (s.withUnread l g out) r k') := by
  cases r with
  | ok x => exact h x
  | error e => exact .of_next (.of_out_eq ⟨rfl, rfl, rfl, rfl, rfl, rfl⟩ rfl rfl)

theorem withReg_resultsAlike {op : Byte} {k k' : RegIndex → Result}
    (h : ∀ x, ResultsAlike s (s.withUnread l g out) (k x) (k' x)) :
    ResultsAlike s (s.withUnread l g out) (withReg op s k)
      (withReg op (s.withUnread l g out) k') := orRaise_resultsAlike _ h

theorem withRegs_resultsAlike {a b : Byte} {k k' : RegIndex → RegIndex → Result}
    (h : ∀ x y, ResultsAlike s (s.withUnread l g out) (k x y) (k' x y)) :
    ResultsAlike s (s.withUnread l g out) (withRegs a b s k)
      (withRegs a b (s.withUnread l g out) k') :=
  withReg_resultsAlike fun x => withReg_resultsAlike (h x)

/-- Unread contents stay apart from whatever else is written. -/
theorem alike_withUnread {t : State} {l' g' : Bool} (ht : t.out = s.out) :
    Alike s (s.withUnread l g out) t (t.withUnread l' g' out) :=
  .of_out_eq ⟨rfl, rfl, rfl, rfl, rfl, rfl⟩ ht rfl

/-- Every instruction: the same checks, reads and branch, then writes that leave the states alike. -/
theorem exec_resultsAlike (i : Instr) :
    ResultsAlike s (s.withUnread l g out) (exec i s) (exec i (s.withUnread l g out)) := by
  cases i with
  | hlt => exact .of_next (alike_withUnread rfl)
  | ldi r v => exact withReg_resultsAlike fun x => .of_next (.advance (alike_withUnread rfl))
  | add | mul | cmp =>
    exact withRegs_resultsAlike fun x y => .of_next (.advance (alike_withUnread rfl))
  | prn r =>
    exact withReg_resultsAlike fun x => .of_next (.advance
      ⟨⟨rfl, rfl, rfl, rfl, rfl, rfl⟩, [s.reg x], rfl, rfl⟩)
  | push r =>
    refine withReg_resultsAlike fun x => ?_
    rw [push_eq, push_eq]
    exact .of_next (.advance (alike_withUnread rfl))
  | pop r =>
    exact withReg_resultsAlike fun x => orRaise_resultsAlike (readTop s) fun v =>
      .of_next (.advance (alike_withUnread rfl))
  | call r =>
    refine withReg_resultsAlike fun x => ?_
    rw [push_eq, push_eq]
    exact .of_next (alike_withUnread rfl)
  | ret => exact orRaise_resultsAlike (readTop s) fun v => .of_next (alike_withUnread rfl)
  | jmp r => exact withReg_resultsAlike fun x => .of_next (alike_withUnread rfl)
  | jeq r =>
    exact withReg_resultsAlike fun x =>
      .of_next (.ite (alike_withUnread rfl) (.advance (alike_withUnread rfl)))
  | jne r =>
    exact withReg_resultsAlike fun x =>
      .of_next (.ite (.advance (alike_withUnread rfl)) (alike_withUnread rfl))

theorem step_resultsAlike :
    ResultsAlike s (s.withUnread l g out) (step s) (step (s.withUnread l g out)) := by
  cases hr : s.run with
  | halted =>
    rw [step_halted hr, step_halted (s := s.withUnread l g out) hr]
    exact .of_next (alike_withUnread rfl)
  | running =>
    have hfetch : fetch (s.withUnread l g out) = fetch s := rfl
    have hr' : (s.withUnread l g out).run = .running := hr
    simp only [step, hr, hr', hfetch]
    exact orRaise_resultsAlike (fetch s) exec_resultsAlike

end

end Sys2Proof.Machine
end

section
/-! PROOFS. The statements on who reads and who writes what, and the frames (spec/10_state.md sections 5
and 6, spec/20_memory.md section 1, spec/40 to 43). -/

namespace Sys2Proof.Proofs

open Sys2Proof.Machine

/-- Settles O22: the other state is the first with other unread contents, which step alike. -/
theorem unreadStateNeverInfluences : Obligations.UnreadStateNeverInfluences := by
  unfold Obligations.UnreadStateNeverInfluences
  intro s s' t hs h
  rw [hs.eq_withUnread]
  obtain ⟨t', h', hagree, vs, ht, ht'⟩ := step_resultsAlike t h
  exact ⟨t', vs, h', hagree, ht, ht'⟩

/-- Settles O18: flags change only to a comparison's result, of which exactly one is set; with Equal clear
JEQ advances and JNE is taken. -/
theorem flagsExactlyOneFromFirstCmp : Obligations.FlagsExactlyOneFromFirstCmp := by
  unfold Obligations.FlagsExactlyOneFromFirstCmp
  refine ⟨rfl, fun s t => step_keeps_fl fun x y => (compareFlags_exactlyOne x y).1,
    fun a b s t ha hb h => ?cmp, fun s t => step_keeps_fl compareFlags_exactlyOne,
    fun r i s hr hfl => ⟨fun hpc => ?jeq, ?jne⟩⟩
  case cmp =>
    have hcmp : exec (.cmp a b) s = _ := execCmp_eq (i := ⟨a.toNat, by omega⟩)
      (j := ⟨b.toNat, by omega⟩) s rfl rfl
    rw [hcmp] at h
    cases h
    rw [advance_fl]
    exact compareFlags_exactlyOne _ _
  case jeq => exact exec_of_effect_room (.jeq r i hr (by rw [hfl])) hpc
  case jne => exact exec_of_transfer (.jne r i hr (by rw [hfl]))

/-- Settles O19: `exec_fl`, of which only the CMP case changes a flag. -/
theorem flagsWrittenOnlyByCmp : Obligations.FlagsWrittenOnlyByCmp := by
  unfold Obligations.FlagsWrittenOnlyByCmp
  intro i s t h hfl
  exact ((exec_fl h).resolve_left hfl).1

/-- Settles O20: a step's one write stores a byte. -/
theorem memoryWrittenOnlyByPushes : Obligations.MemoryWrittenOnlyByPushes := by
  unfold Obligations.MemoryWrittenOnlyByPushes
  refine ⟨fun i s t a h ha => ?written, fun s t a ha h => ?kept⟩
  case written => exact (exec_cell_ne h ha).imp_right fun he => he.trans (pushAddr_eq s)
  case kept =>
    rcases step_mem h with hm | ⟨v, hm⟩ <;> rw [hm]
    · exact ha
    · rw [Memory.cell_write]
      split
      · nofun
      · exact ha

/-- Settles O21: `exec_out`, read off the four ways an instruction ends. -/
theorem outputGrowsOnlyByPrn : Obligations.OutputGrowsOnlyByPrn :=
  fun _ _ _ h => exec_out h

/-- Settles O23: none of the three stores, compares, prints or halts. -/
theorem frameOfLdiAddMul : Obligations.FrameOfLdiAddMul := by
  unfold Obligations.FrameOfLdiAddMul
  intro a b s t i hi h
  simp only [List.mem_cons, List.not_mem_nil, or_false] at hi
  rcases hi with rfl | rfl | rfl <;>
    exact ⟨fun k hk => exec_reg h (Ne.symm hk), exec_sameMem h (by simp [Stores]),
      exec_fl_eq h (by simp), exec_out_eq h (by simp), exec_sameRunOrFatal h (by simp)⟩

/-- Settles O24: none of the six writes a register or stores; CMP alone compares, PRN alone prints, HLT
alone halts. -/
theorem frameOfPrnCmpJumpsHlt : Obligations.FrameOfPrnCmpJumpsHlt := by
  unfold Obligations.FrameOfPrnCmpJumpsHlt
  intro a b s t i hi h
  have hreg (k : RegIndex) : ¬ MayWriteReg k i := by
    simp only [List.mem_cons, List.not_mem_nil, or_false] at hi
    rcases hi with rfl | rfl | rfl | rfl | rfl | rfl <;> exact id
  refine ⟨fun k _ => exec_reg h (hreg k), exec_sameMem h ?mem, fun hne => exec_fl_eq h ?fl,
    fun hne => exec_out_eq h ?out, exec_sameRunOrFatal h, ?hlt⟩
  case mem => rintro (⟨r, rfl⟩ | ⟨r, rfl⟩) <;> simp at hi
  case fl => rintro ⟨x, y, rfl⟩; exact hne (by simpa using hi)
  case out => rintro r rfl; exact hne (by simpa using hi)
  case hlt => rintro rfl; cases h; exact ⟨rfl, rfl, rfl⟩

/-- Settles O25: neither stores, compares, prints or halts. -/
theorem frameOfPopRet : Obligations.FrameOfPopRet := by
  unfold Obligations.FrameOfPopRet
  refine fun r s t => ⟨fun h => ?pop, fun h => ?ret⟩
  case pop =>
    exact ⟨fun k hr h7 => exec_reg h (not_or.2 ⟨Ne.symm hr, h7⟩), exec_sameMem h (by simp [Stores]),
      exec_fl_eq h (by simp), exec_out_eq h (by simp), exec_sameRunOrFatal h (by simp)⟩
  case ret =>
    exact ⟨fun k hk => exec_reg h (List.ne_of_not_mem_cons hk), exec_sameMem h (by simp [Stores]),
      exec_fl_eq h (by simp), exec_out_eq h (by simp), exec_sameRunOrFatal h (by simp)⟩

/-- Settles O26: the cell that changes is the one at the store address. -/
theorem frameOfPushCall : Obligations.FrameOfPushCall := by
  unfold Obligations.FrameOfPushCall
  intro r s t i hi h
  have hmem : ∀ a, pushAddr s = a → a = ((s.reg 7).toNat + 255) % 256 ∧
      ∀ x, x ≠ a → t.mem.cell x = s.mem.cell x := by
    rintro _ rfl
    exact ⟨pushAddr_eq s, fun x hx => not_not.1 fun hne => hx (exec_cell_ne h hne).2⟩
  simp only [List.mem_cons, List.not_mem_nil, or_false] at hi
  rcases hi with rfl | rfl <;>
    exact ⟨fun k hk => exec_reg h (List.ne_of_not_mem_cons hk), hmem, exec_fl_eq h (by simp),
      exec_out_eq h (by simp), exec_sameRunOrFatal h (by simp)⟩

/-- Settles O9: the first operand out of range, then the second; and with all of them in range every
other error has another name. -/
theorem registerIndexChecked : Obligations.RegisterIndexChecked := by
  unfold Obligations.RegisterIndexChecked
  simp only [List.mem_cons, List.not_mem_nil, or_false]
  refine ⟨?formatR, ?formatRR, fun r v s hr => exec_bad_first s rfl hr, ?inRange⟩
  case formatR =>
    rintro mk (rfl | rfl | rfl | rfl | rfl | rfl | rfl) r s hr <;> exact exec_bad_first s rfl hr
  case formatRR =>
    rintro mk (rfl | rfl | rfl) a b s <;>
      exact ⟨fun ha => exec_bad_first s rfl ha, fun ha hb => exec_bad_second s rfl ha hb⟩
  case inRange =>
    intro i s t n hi hs h ht
    rcases exec_err hs h ht with hr | ⟨m, hm⟩
    · exact hr.ne_reg hi n rfl
    · cases hm

/-- Settles O10: the writes are an `Effect`, the same at every `pc`. -/
theorem sequentialAdvance : Obligations.SequentialAdvance := by
  unfold Obligations.SequentialAdvance
  intro i s u ha hw hpop h
  obtain ⟨w, hu⟩ := exists_effect ha hw hpop
  have hlen := length_le_three i
  obtain rfl : w.setPc (BitVec.ofNat 8 i.length) = u := by
    have hzero := exec_at_zero hu
    exact Host.Outcome.next.inj (hzero.symm.trans h)
  refine ⟨toNat_ofNat_of_le (by omega), hu.run_eq, hu.err_eq, fun hpc => ?room, fun hpc => ?overrun⟩
  case room => exact exec_of_effect_room (u := w) hu hpc
  case overrun => rw [exec_of_effect_overrun hu hpc, ← hu.pc_eq]; rfl

end Sys2Proof.Proofs
end

section
/-! PROOFS. What the shared shapes of a result leave: one register written, a byte pushed, the top of the
stack popped (spec/41_data_alu.md, spec/42_stack_subroutine.md R90, R91). -/

namespace Sys2Proof.Machine

theorem setReg_sameRegsBut (s : State) (x : RegIndex) (v : Byte) :
    s.SameRegsBut (s.setReg x v) [x] :=
  fun _ hk => s.reg_setReg_ne v (List.ne_of_not_mem_cons hk)

/-- An instruction whose one write is register `x` completes with it, where `pc` has room. -/
theorem completes_of_effect_setReg {s : State} {i : Instr} {x : RegIndex} {v : Byte}
    (h : Effect s i (s.setReg x v)) (hpc : s.pc.toNat + i.length ≤ 255) :
    ∃ t, exec i s = .next t ∧ t.reg x = v ∧ s.SameRegsBut t [x] ∧
      t.pc.toNat = s.pc.toNat + i.length ∧ s.SameMem t ∧ t.fl = s.fl ∧ t.out = s.out ∧
      s.SameRun t :=
  ⟨_, exec_of_effect_room h hpc, s.reg_setReg_same x v, setReg_sameRegsBut s x v,
    toNat_ofNat_of_le hpc, fun _ => rfl, rfl, rfl, rfl, rfl⟩

/-- Register 7 after a push is the address the byte stands at (R90). -/
theorem pushed_reg_seven_toNat (s : State) (v : Byte) :
    ((pushed s v).reg 7).toNat = ((s.reg 7).toNat + 255) % 256 := pushAddr_eq s

theorem pushed_sameRegsBut (s : State) (v : Byte) : s.SameRegsBut (pushed s v) [7] :=
  fun _ hk => decSp_reg_of_ne (List.ne_of_not_mem_cons hk)

/-- The memory after a push: the byte at the store address, every other cell as before (R90). -/
theorem pushed_mem_cell (s : State) (v : Byte) :
    ∀ a, pushAddr s = a → a = ((s.reg 7).toNat + 255) % 256 ∧
      (pushed s v).mem.cell a = .byte v ∧ ∀ x, x ≠ a → (pushed s v).mem.cell x = s.mem.cell x := by
  rintro _ rfl
  exact ⟨pushAddr_eq s, Memory.cell_write_same _ _ v, fun x hx => Memory.cell_write_ne _ v hx⟩

theorem decSp_reg_seven (s : State) : s.decSp.reg 7 = s.reg 7 - 1 := rfl

theorem incSp_reg_seven (s : State) : s.incSp.reg 7 = s.reg 7 + 1 := rfl

/-- Reading the byte just pushed: it stands at the new stack pointer. -/
theorem pushed_top (s : State) (v : Byte) :
    (pushed s v).mem.cell (pushed s v).sp.toNat = .byte v := Memory.cell_write_same _ _ v

theorem byte_sub_one_add_one (x : Byte) : x - 1 + 1 = x := BitVec.sub_add_cancel x 1

/-- Taking the byte off again restores every register: the increment undoes the decrement. -/
theorem incSp_regs_of_decSp {s t : State} (h : ∀ k, t.reg k = s.decSp.reg k) : t.incSp.regs = s.regs := by
  refine RegFile.ext_get fun k => ?_
  show t.incSp.reg k = s.reg k
  by_cases hk : k = 7
  · subst hk; rw [incSp_reg_seven, h, decSp_reg_seven, byte_sub_one_add_one]
  · rw [incSp_reg_of_ne hk, h, decSp_reg_of_ne hk]

/-- Writing back what a register holds changes no register. -/
theorem reg_setReg_self (s : State) (x k : RegIndex) : (s.setReg x (s.reg x)).reg k = s.reg k := by
  rw [State.reg_setReg]
  split
  · next h => rw [h]
  · rfl

/-- The registers after POP's two writes (R93): `x` takes the byte, then register 7, read after that
write, goes up by one. -/
theorem popped_reg {s : State} {x : RegIndex} {v : Byte} (hx : x ≠ 7) :
    (s.setReg x v).incSp.reg x = v ∧ (s.setReg x v).incSp.reg 7 = s.reg 7 + 1 := by
  constructor
  · rw [incSp_reg_of_ne hx, State.reg_setReg_same]
  · rw [incSp_reg_seven, State.reg_setReg_ne s v hx.symm]

theorem popped_reg_seven (s : State) (v : Byte) : (s.setReg 7 v).incSp.reg 7 = v + 1 := by
  rw [incSp_reg_seven, State.reg_setReg_same]

/-- Bytes above a store stand as before. -/
theorem Memory.Holds.write_lt {m : Memory} {a b : Nat} {bs : List Byte} (v : Byte) (hb : b < a)
    (h : m.Holds a bs) : (m.write b v).Holds a bs := by
  induction bs generalizing a with
  | nil => trivial
  | cons c bs ih =>
    obtain ⟨⟨ha, hc⟩, htail⟩ := h
    exact ⟨⟨ha, (Memory.cell_write_ne m v (by omega)).trans hc⟩, ih (by omega) htail⟩

/-- Where the byte a push stored is the next opcode, the bytes fetched are it and those after it. -/
theorem fetch_of_pushed {s t : State} {v : Byte} {tail rest : List Byte} {j : Instr}
    (hmem : t.mem = (pushed s v).mem) (hpc : t.pc.toNat = pushAddr s)
    (htail : s.mem.Holds (pushAddr s + 1) tail) (hd : decode (v :: tail) = .ok (j, rest)) :
    fetch t = .ok j := by
  refine fetch_of_holds (bytes := v :: tail) ?_ hd
  rw [hmem, hpc]
  exact ⟨⟨pushAddr_le s, pushed_top s v⟩, htail.write_lt v (Nat.lt_succ_self _)⟩

/-- `MemWrite` in range (R33). -/
theorem memWrite_ok {a : Nat} (v : Nat) (s : State) (ha : a ≤ 255) :
    memWrite a v s = .ok { s with mem := s.mem.write a (BitVec.ofNat 8 v) } := by
  rw [memWrite, if_neg (by omega)]

/-- `MemWrite` above 255 (R33). -/
theorem memWrite_outOfBounds {a : Nat} (v : Nat) (s : State) (ha : 255 < a) :
    memWrite a v s = .error (.outOfBoundsMem a) := by
  rw [memWrite, if_pos (by omega)]

end Sys2Proof.Machine
end

section
/-! PROOFS. The results of the instructions (spec/40_dispatch_system.md to spec/43_compare_branch.md). -/

namespace Sys2Proof.Proofs

open Sys2Proof.Machine

/-- Settles O27: LDI's one write is its register. -/
theorem ldiCompletes : Obligations.LdiCompletes :=
  fun r v i _ hr hpc => completes_of_effect_setReg (.ldi r v i hr) hpc

/-- Settles O28: the register write is the byte sum. -/
theorem addCompletes : Obligations.AddCompletes := by
  unfold Obligations.AddCompletes
  intro a b i j s ha hb hpc
  obtain ⟨t, hx, hv, hrest⟩ := completes_of_effect_setReg (.add a b i j ha hb) hpc
  exact ⟨t, hx, by rw [hv, BitVec.toNat_add], hrest⟩

/-- Settles O29: the register write is the byte product. -/
theorem mulCompletes : Obligations.MulCompletes := by
  unfold Obligations.MulCompletes
  intro a b i j s ha hb hpc
  obtain ⟨t, hx, hv, hrest⟩ := completes_of_effect_setReg (.mul a b i j ha hb) hpc
  exact ⟨t, hx, by rw [hv, BitVec.toNat_mul], hrest⟩

/-- Settles O30: PRN's effect is the append, with room for the advance. -/
theorem prnCompletes : Obligations.PrnCompletes := by
  unfold Obligations.PrnCompletes
  intro r i s hr hpc
  exact ⟨_, exec_of_effect_room (.prn r i hr) hpc, rfl, fun _ _ => rfl, toNat_ofNat_of_le hpc,
    fun _ => rfl, rfl, rfl, rfl⟩

/-- Settles O31: HLT has no check and no advance. -/
theorem hltCompletes : Obligations.HltCompletes := fun _ => rfl

/-- Settles O32: the byte stored is the register read in the state of the decrement. -/
theorem pushCompletes : Obligations.PushCompletes := by
  unfold Obligations.PushCompletes
  intro r i s hr hpc
  have hv : s.decSp.reg i = if i = 7 then s.reg 7 - 1 else s.reg i := s.decSp_reg i
  refine ⟨_, exec_of_effect_room (.push r i hr) hpc, pushed_reg_seven_toNat s (s.decSp.reg i),
    pushed_sameRegsBut s (s.decSp.reg i), ?stored, toNat_ofNat_of_le hpc, rfl, rfl, rfl, rfl⟩
  case stored => exact hv ▸ pushed_mem_cell s (s.decSp.reg i)

/-- Settles O33: POP's own order of the two writes, for register 7 and for any other. -/
theorem popCompletes : Obligations.PopCompletes := by
  unfold Obligations.PopCompletes
  intro r v i s hr hv hpc
  refine ⟨_, exec_of_effect_room (.pop r v i hr hv) hpc, fun hi => ?other, fun hi => ?seven,
    fun k hk => ?kept, toNat_ofNat_of_le hpc, fun _ => rfl, rfl, rfl, rfl, rfl⟩
  case other =>
    obtain ⟨hreg, h7⟩ := popped_reg (s := s) (v := v) hi
    exact ⟨hreg, (congrArg BitVec.toNat h7).trans (toNat_add_one _)⟩
  case seven =>
    subst hi
    exact (congrArg BitVec.toNat (popped_reg_seven s v)).trans (toNat_add_one v)
  case kept =>
    have h7 := List.ne_of_not_mem_cons (List.not_mem_of_not_mem_cons hk)
    exact (incSp_reg_of_ne h7).trans (s.reg_setReg_ne v (List.ne_of_not_mem_cons hk))

/-- Settles O34: the target is read in the state of the push. -/
theorem callCompletes : Obligations.CallCompletes := by
  unfold Obligations.CallCompletes
  intro r i s hr
  let back := BitVec.ofNat 8 (s.pc.toNat + 2)
  exact ⟨_, back, exec_of_transfer (.call r i hr), pushed_reg_seven_toNat s back,
    pushed_sameRegsBut s back, BitVec.toNat_ofNat _ _, pushed_mem_cell s back,
    s.decSp_reg i, rfl, rfl, rfl, rfl⟩

/-- Settles O35: RET's transfer takes the byte at `sp`. -/
theorem retCompletes : Obligations.RetCompletes := by
  unfold Obligations.RetCompletes
  intro v s hv
  exact ⟨_, exec_of_transfer (.ret v hv), rfl, toNat_add_one _,
    fun _ hk => incSp_reg_of_ne (List.ne_of_not_mem_cons hk), fun _ => rfl, rfl, rfl, rfl, rfl⟩

/-- Settles O36: `compareFlags` decides the three unsigned comparisons. -/
theorem cmpCompletes : Obligations.CmpCompletes := by
  unfold Obligations.CmpCompletes
  intro a b i j s ha hb hpc
  exact ⟨_, exec_of_effect_room (.cmp a b i j ha hb) hpc, decide_eq_true_iff, decide_eq_true_iff,
    decide_eq_true_iff, fun _ _ => rfl, toNat_ofNat_of_le hpc, fun _ => rfl, rfl, rfl, rfl⟩

/-- Settles O37: the transfer is taken in every state. -/
theorem jmpCompletes : Obligations.JmpCompletes :=
  fun r i _ hr => exec_of_transfer (.jmp r i hr)

/-- Settles O38: the transfer if Equal, else the advance with room. -/
theorem jeqCompletes : Obligations.JeqCompletes :=
  fun r i _ hr => ⟨fun he => exec_of_transfer (.jeq r i hr he),
    fun he hpc => exec_of_effect_room (.jeq r i hr he) hpc⟩

/-- Settles O39: the advance with room if Equal, else the transfer. -/
theorem jneCompletes : Obligations.JneCompletes :=
  fun r i _ hr => ⟨fun he => exec_of_transfer (.jne r i hr he),
    fun he hpc => exec_of_effect_room (.jne r i hr he) hpc⟩

/-- Settles O40: the read of the top fails before any write. -/
theorem emptyStackReadIsFatal : Obligations.EmptyStackReadIsFatal := by
  unfold Obligations.EmptyStackReadIsFatal
  intro s hv
  exact ⟨fun r hr => execPop_empty (i := ⟨r.toNat, by omega⟩) rfl hv, execRet_empty hv⟩

/-! The arithmetic unit and memory. -/

/-- Settles O41: the unit's two selectors, one arm per other selector, and that every instruction
answers a next state. -/
theorem aluSupportsAddMulOnly : Obligations.AluSupportsAddMulOnly := by
  unfold Obligations.AluSupportsAddMulOnly
  refine ⟨fun a b s => ⟨⟨_, rfl, ?sum, rfl, setReg_sameRegsBut s a _⟩,
    ⟨_, rfl, ?product, rfl, setReg_sameRegsBut s a _⟩⟩, fun op a b s hadd hmul => ?other,
    fun i s op h => ?exec⟩
  case sum => rw [State.reg_setReg_same, BitVec.toNat_add]
  case product => rw [State.reg_setReg_same, BitVec.toNat_mul]
  case other =>
    cases op with
    | ADD => exact absurd rfl hadd
    | MUL => exact absurd rfl hmul
    | LDI | PRN | HLT | PUSH | POP | CALL | RET | CMP | JMP | JEQ | JNE => rfl
  case exec =>
    obtain ⟨t, ht⟩ := exists_exec_eq_next i s
    rw [ht] at h
    cases h

/-- Settles O42: the three answers of `memRead`. -/
theorem memReadCases : Obligations.MemReadCases :=
  fun _ _ => ⟨memRead_outOfBounds, memRead_empty, fun _ => memRead_byte⟩

/-- Settles O43: the four clauses are the write, the store address, the errors an instruction can raise,
and the wrapped return address. -/
theorem memWriteStoresOneCell : Obligations.MemWriteStoresOneCell := by
  unfold Obligations.MemWriteStoresOneCell
  refine ⟨fun a v s => ⟨memWrite_outOfBounds v s, fun ha => ?write⟩,
    fun i s t a h ha => (exec_cell_ne h ha).2.trans (pushAddr_eq s), fun i s t a hs h ht => ?noRaise,
    fun r s t hr hpc h => ?call⟩
  case write =>
    have hcell := s.mem.cell_write_same a (BitVec.ofNat 8 v)
    exact ⟨_, BitVec.ofNat 8 v, memWrite_ok v s ha, BitVec.toNat_ofNat v 8, hcell,
      memRead_byte ha hcell, fun x hx => s.mem.cell_write_ne _ hx, rfl,
      fun hw => Memory.wf_write hw ha _⟩
  case noRaise =>
    rcases exec_err hs h ht with hr | ⟨n, hn⟩
    · exact hr.ne_mem a rfl
    · cases hn
  case call =>
    have hcall : exec (.call r) s = _ := execCall_eq (i := ⟨r.toNat, by omega⟩) s rfl
    rw [hcall, hpc] at h
    cases h
    exact (pushed_mem_cell s (BitVec.ofNat 8 256) _ (pushAddr_eq s)).2.1

/-! Laws across instructions. -/

/-- Settles O45: POP writes back the byte PUSH read, and the increment undoes the decrement. -/
theorem pushThenPopRestores : Obligations.PushThenPopRestores := by
  unfold Obligations.PushThenPopRestores
  intro r s hr hpc
  let i : RegIndex := ⟨r.toNat, by omega⟩
  let t := (pushed s (s.decSp.reg i)).setPc (BitVec.ofNat 8 (s.pc.toNat + 2))
  have htpc : t.pc.toNat = s.pc.toNat + 2 := toNat_ofNat_of_le (by omega)
  have hpush : exec (.push r) s = .next t :=
    exec_of_effect_room (.push r i rfl) (show s.pc.toNat + 2 ≤ 255 by omega)
  have hroom : t.pc.toNat + 2 ≤ 255 := by omega
  have htop : t.mem.cell t.sp.toNat = .byte (t.reg i) := pushed_top s (s.decSp.reg i)
  refine ⟨t, _, hpush, exec_of_effect_room (.pop r (t.reg i) i rfl htop) hroom,
    incSp_regs_of_decSp fun k => reg_setReg_self t i k, ?pc⟩
  case pc => exact (toNat_ofNat_of_le hroom).trans (by omega)

/-- Settles O46: RET finds CALL's return address at the stack pointer, and the increment undoes the
decrement. -/
theorem callThenRetReturns : Obligations.CallThenRetReturns := by
  unfold Obligations.CallThenRetReturns
  intro r s hr
  let i : RegIndex := ⟨r.toNat, by omega⟩
  let back := BitVec.ofNat 8 (s.pc.toNat + 2)
  refine ⟨_, exec_of_transfer (.call r i rfl), fun u hmem hregs => ?_⟩
  have hreg (k : RegIndex) : u.reg k = s.decSp.reg k := congrArg (·.get k) hregs
  have htop : u.mem.cell u.sp.toNat = .byte back := by
    rw [hmem, State.sp_eq, hreg]
    exact pushed_top s back
  exact ⟨_, exec_of_transfer (.ret back htop), incSp_regs_of_decSp hreg, BitVec.toNat_ofNat _ _⟩

/-- Settles O47: CMP leaves in Equal whether the two registers were equal, and neither branch has moved
since. -/
theorem compareThenBranch : Obligations.CompareThenBranch := by
  unfold Obligations.CompareThenBranch
  intro a b r i j k s ha hb hr hpc
  let t := (s.setFlags (compareFlags (s.reg i) (s.reg j))).setPc (BitVec.ofNat 8 (s.pc.toNat + 3))
  have hcmp : exec (.cmp a b) s = .next t :=
    exec_of_effect_room (.cmp a b i j ha hb) (show s.pc.toNat + 3 ≤ 255 by omega)
  have htpc : t.pc.toNat = s.pc.toNat + 3 := toNat_ofNat_of_le (by omega)
  have hroom : t.pc.toNat + 2 ≤ 255 := by omega
  have hnext : (BitVec.ofNat 8 (t.pc.toNat + 2)).toNat = s.pc.toNat + 5 := by
    rw [toNat_ofNat_of_le hroom, htpc]
  by_cases heq : s.reg i = s.reg j
  · have hE : t.fl.equal = true := decide_eq_true (congrArg BitVec.toNat heq)
    exact ⟨t, _, _, hcmp, exec_of_transfer (.jeq r k hr hE),
      exec_of_effect_room (.jne r k hr hE) hroom, fun _ => ⟨rfl, hnext⟩, fun hne => absurd heq hne⟩
  · have hE : t.fl.equal = false := decide_eq_false fun h => heq (BitVec.eq_of_toNat_eq h)
    exact ⟨t, _, _, hcmp, exec_of_effect_room (.jeq r k hr hE) hroom,
      exec_of_transfer (.jne r k hr hE), fun h => absurd h heq, fun _ => ⟨hnext, rfl⟩⟩

/-- Settles O48: the fetch reads the memory the store left, the bytes above it being as before. -/
theorem storeSeenByNextFetch : Obligations.StoreSeenByNextFetch := by
  unfold Obligations.StoreSeenByNextFetch
  intro r v k s t tail rest j hr hrun hpc htail hd
  have hstep (hmem : t.mem = (pushed s v).mem) : step t = exec j t :=
    step_of_fetch hrun (fetch_of_pushed hmem hpc htail hd)
  refine ⟨fun h hv => hstep ?push, fun h hv => hstep ?call⟩
  case push =>
    have hv : v = s.decSp.reg k := hv.trans (s.decSp_reg k).symm
    have hpush : exec (.push r) s = _ := execPush_eq s hr
    rw [hpush] at h
    cases h
    rw [advance_mem, hv]
  case call =>
    have hv : v = BitVec.ofNat 8 (s.pc.toNat + 2) :=
      BitVec.eq_of_toNat_eq (by rw [hv, BitVec.toNat_ofNat])
    have hcall : exec (.call r) s = _ := execCall_eq s hr
    rw [hcall] at h
    cases h
    rw [State.setPc_mem, hv]

/-! Reset and launch. -/

/-- Settles O49: each reset value, evaluated. -/
theorem resetValues : Obligations.ResetValues :=
  ⟨fun _ => rfl, by decide, rfl, rfl, rfl, rfl, rfl, rfl⟩

/-- Settles O50: the launch is a load of empty memory from address 0. -/
theorem launchContract : Obligations.LaunchContract := by
  unfold Obligations.LaunchContract
  refine fun p => ⟨fun hp => ⟨_, launch_eq_some_iff.2 ⟨hp, rfl⟩, fun k hk => ?loaded, fun a ha => ?above,
    rfl⟩, fun hp => ?long⟩
  case loaded => simpa using Memory.cell_load [] 0 p hk
  case above => exact Memory.cell_load_ge [] 0 p (by omega)
  case long =>
    exact Option.eq_none_iff_forall_ne_some.2 fun s hs =>
      absurd (launch_eq_some_iff.1 hs).1 (by omega)

end Sys2Proof.Proofs
end
